-- ==== Sys2Proof/Word.lean ====
section
/-! DEFINITION. The bit-vector types the spec names: ROM bytes, nibbles, pin readings, opcodes. -/

namespace Sys2Proof

/-- One ROM cell, a packed byte (20_memory.md R32). -/
abbrev Byte := BitVec 8

/-- Half a cell (20_memory.md R32). -/
abbrev Nibble := BitVec 4

/-- A pin reading: bit 1 is the level of pin2, bit 0 the level of pin1 (30_encoding.md R56). -/
abbrev Pins := BitVec 2

/-- The opcode field, port `cmd_op` (30_encoding.md R55). -/
abbrev Opcode := BitVec 3

end Sys2Proof
end

