-- ==== Sys2Proof/Config.lean ====
section
/-! DEFINITION. The elaboration-time constants of the block (00_scope.md R5, R6; 10_state.md R17).
`RawConfig` is what somebody asks for; `Config` is a configuration of this hardware, which the spec
says is well-formed, so an ill-formed one cannot be written as a `Config`. -/

namespace Sys2Proof

/-- A requested configuration, not yet checked.  `maximum` is an integer so that the negative
value the spec refuses (93_implementation_defined.md U4) can be asked for.  The defaults are those of
00_scope.md R5; the widths have none. -/
structure RawConfig where
  halfStep : Bool := false
  maximum : Int := 0
  saturate : Bool := true
  posW : Nat
  turnsW : Nat
  deriving DecidableEq, Repr

/-- A configuration of this hardware (00_scope.md R5), with the three conditions of R6.
`halfStep` is `HALF_STEP`, `maximum` is `MAX` (0 means no bound), `saturate` is `SATURATE`,
`posW` and `turnsW` are `POS_W` and `TURNS_W`. -/
structure Config where
  halfStep : Bool
  maximum : Nat
  saturate : Bool
  posW : Nat
  turnsW : Nat
  posW_ge : 2 ≤ posW
  turnsW_ge : 2 ≤ turnsW
  maximum_le : (maximum : Int) ≤ 2 ^ (posW - 1) - 1
  deriving DecidableEq, Repr

/-- `NROWS` for a table variant: 6 in half-step mode, 7 in full-step mode (00_scope.md R5). -/
abbrev nrowsOf (half : Bool) : Nat := if half then 6 else 7

namespace Config

/-- `NROWS` (00_scope.md R5). -/
abbrev nrows (c : Config) : Nat := nrowsOf c.halfStep

/-- `ARG_W`, the width of port `cmd_arg` (30_encoding.md R55). -/
abbrev argW (c : Config) : Nat := max c.posW c.turnsW

/-- `POS_MIN` (00_scope.md R5). -/
def posMin (c : Config) : Int := -2 ^ (c.posW - 1)

/-- `POS_MAX` (00_scope.md R5). -/
def posMax (c : Config) : Int := 2 ^ (c.posW - 1) - 1

/-- `TURNS_MIN` (00_scope.md R5). -/
def turnsMin (c : Config) : Int := -2 ^ (c.turnsW - 1)

/-- `TURNS_MAX` (00_scope.md R5). -/
def turnsMax (c : Config) : Int := 2 ^ (c.turnsW - 1) - 1

/-- The defaults of 00_scope.md R5 with the widths of the spec's reference instantiation, 16 and 16
(92_eei_decisions.md D7).  DESIGN CHOICE: the spec leaves the widths open; log entry 1. -/
def reference : Config where
  halfStep := false
  maximum := 0
  saturate := true
  posW := 16
  turnsW := 16
  posW_ge := by decide
  turnsW_ge := by decide
  maximum_le := by decide

end Config

end Sys2Proof
end

