-- ==== Sys2Proof/Machine/State.lean ====
section
/-! DEFINITION. The state of one block as plain data, the ways a step can stop, and the state after
reset (10_state.md R10 to R24). -/

namespace Sys2Proof.Machine

/-- A direction flag; the three values are mutually exclusive (20_memory.md R33). -/
inductive Dir where
  | none
  | cw
  | ccw
  deriving DecidableEq, Repr

/-- What the input ports show at one rising edge of `clk` (10_state.md R20). -/
structure Edge (c : Config) where
  rst : Bool
  cmdValid : Bool
  cmdOp : Opcode
  cmdArg : BitVec c.argW
  deriving DecidableEq, Repr

/-- One block.  `state`, `lastDir`, `position`, `turns` are its four registers (10_state.md R10), each
of the type the spec gives it, so that a value it never holds cannot be written down (R12).
`cfg` holds the hardwired constants (R17): no step changes them, and they stand in State because the
step takes nothing else (log entry 1).
`regsDefined` says whether the registers hold defined values: false from power-on to the first reset
edge or `INIT` (70_reset_and_hazards.md R121; log entry 4).
`edges` is the model's own field: what the host will present at the coming clock edges, the next one
first; an empty list stands for a host that presents nothing (log entry 2). -/
structure State where
  cfg : Config
  regsDefined : Bool
  state : Fin cfg.nrows
  lastDir : Dir
  position : BitVec cfg.posW
  turns : BitVec cfg.turnsW
  edges : List (Edge cfg)
  deriving DecidableEq, Repr

/-- The model-level faults: the step has no successor (60_exceptions.md R105, R106). The hardware
itself signals nothing. -/
inductive Fault where
  /-- `F_POS_RANGE`: raised by `STEP` when `MAX` = 0 and `position` would leave its range; records the
  flag and the old `position` (60_exceptions.md R106).  Safe: the spec gives no result (log entry 5). -/
  | posRange (dir : Dir) (oldPosition : Int)
  /-- `F_TURNS_RANGE`: raised by `STEP` in wrap mode when `turns` would leave its range; records the
  flag and the old `turns` (60_exceptions.md R106).  Safe: the spec gives no result (log entry 5). -/
  | turnsRange (dir : Dir) (oldTurns : Int)
  /-- Raised by `STEP`, `SETPOS` and `SETTURNS` issued before the first reset or `INIT`, to which
  70_reset_and_hazards.md R121 gives no meaning.  Safe: unreachable from reset (log entry 4). -/
  | beforeReset
  deriving DecidableEq, Repr

/-- The inputs the spec gives no meaning (60_exceptions.md R106). -/
inductive Refusal where
  /-- Raised by an arm of `exec` whose command has no meaning yet; no arm does.  Safe. -/
  | notModelled (mnemonic : String)
  /-- `R_RESERVED_OP`: raised by command decode on opcodes 0b101 to 0b111; records the opcode
  (30_encoding.md R58).  Safe: a model must refuse where the hardware ignores (log entry 6). -/
  | reservedOp (op : Opcode)
  /-- `R_BAD_CONFIG`: raised by elaboration of an ill-formed configuration; records it
  (00_scope.md R6).  Safe: it is no configuration of this hardware. -/
  | badConfig (raw : RawConfig)
  deriving DecidableEq, Repr

/-- The start row, row 0 in both tables (20_memory.md R38 (d); 10_state.md R22). -/
def startRow (c : Config) : Fin c.nrows := ⟨0, by unfold Config.nrows nrowsOf; split <;> decide⟩

/-- A block of configuration `c` right after reset (10_state.md R22), with the given edges to come. -/
def State.resetOf (c : Config) (edges : List (Edge c)) : State where
  cfg := c
  regsDefined := true
  state := startRow c
  lastDir := .none
  position := 0
  turns := 0
  edges := edges

/-- The machine right after reset (10_state.md R22), in the reference configuration, with no command
presented yet.  DESIGN CHOICE for the configuration: log entry 1. -/
def State.reset : State := State.resetOf Config.reference []

end Sys2Proof.Machine
end

