-- ==== Sys2Proof/Machine/Ops.lean ====
section
/-! DEFINITION. The named operations over the registers (00_scope.md R8).

TAKING AN EXCEPTION: this hardware has none, so there is no such operation and no return from one: it
raises no exception, trap or error (60_exceptions.md R105), has no interrupt (R108), saves no state,
changes no mode and goes nowhere on one (R110, R111).  What the spec leaves without a result ends in
a `Fault`, what it gives no meaning ends in a `Refusal` (R106). -/

namespace Sys2Proof.Machine

/-- How a command or a clock edge ends. -/
abbrev Result := Host.Outcome State Fault Refusal

/-- The row index that `state` holds. -/
def State.row (s : State) : Nat := s.state.val

/-- The signed integer that `position` holds (10_state.md R14). -/
def State.pos (s : State) : Int := s.position.toInt

/-- The signed integer that `turns` holds (10_state.md R15). -/
def State.trn (s : State) : Int := s.turns.toInt

/-- `position <- v`: the register takes `v` in `POS_W` bits of two's complement. -/
def State.writePosition (s : State) (v : Int) : State :=
  { s with position := BitVec.ofInt s.cfg.posW v }

/-- `turns <- v`: the register takes `v` in `TURNS_W` bits of two's complement. -/
def State.writeTurns (s : State) (v : Int) : State :=
  { s with turns := BitVec.ofInt s.cfg.turnsW v }

/-- `state <- r` and `last_dir <- d`. -/
def State.writeFsm (s : State) (r : Fin s.cfg.nrows) (d : Dir) : State :=
  { s with state := r, lastDir := d }

/-- The values of 10_state.md R22 in all four registers, which are then defined; reset
(70_reset_and_hazards.md R120) and `INIT` (42_control.md R95) both do this.  It reads no register. -/
def State.initialise (s : State) : State :=
  { s with regsDefined := true, state := startRow s.cfg, lastDir := .none, position := 0, turns := 0 }

/-- A command that the spec gives no meaning before the first reset or `INIT` faults there
(70_reset_and_hazards.md R121). -/
def whenDefined (s : State) (k : Result) : Result :=
  if s.regsDefined then k else .fault .beforeReset

end Sys2Proof.Machine
end

