-- ==== Sys2Proof/Machine/Control.lean ====
section
/-! DEFINITION. The control commands `INIT` and `NOP` (42_control.md). -/

namespace Sys2Proof.Machine

/-- `NOP` writes no register (42_control.md R96); it reads none, so it is defined before reset too. -/
def execNop (s : State) : Result := .next s

/-- `INIT` gives the reset values (42_control.md R95); it reads no register, so it is defined before
the first reset too. -/
def execInit (s : State) : Result := .next s.initialise

end Sys2Proof.Machine
end

