-- ==== Sys2Proof/Machine/Rom.lean ====
section
/-! DEFINITION. The block's one memory: the transition-table ROM (20_memory.md R30 to R45).  It is
read-only and no part of the state (10_state.md R23): `HALF_STEP` selects one of two constants.
There is no memory write. -/

namespace Sys2Proof.Machine

/-- A memory: address and byte, addresses rising. -/
abbrev Memory := List Host.Cell

/-- The canonical form: addresses strictly rising.  An address that is not listed has no contents
(20_memory.md R31), so no listed byte equals what an unlisted address reads as. -/
def Memory.wf (m : Memory) : Bool :=
  match m with
  | [] => true
  | [_] => true
  | x :: y :: rest => decide (x.1 < y.1) && Memory.wf (y :: rest)

/-- The byte at an address; `none` where nothing exists (20_memory.md R31, R45). -/
def Memory.read : Memory → Nat → Option Byte
  | [], _ => none
  | (a, b) :: rest, x => if a = x then some b else Memory.read rest x

/-- A flat image as memory, address 0 first. -/
def Memory.ofImage : Nat → List Byte → Memory
  | _, [] => []
  | a, b :: rest => (a, b) :: Memory.ofImage (a + 1) rest

/-- The full-step table as a flat image, four bytes a row (20_memory.md R35). -/
def fullStepImage : List Byte :=
  [0x00, 0x01, 0x04, 0x00] ++ [0x00, 0x01, 0x00, 0x02] ++ [0x00, 0x01, 0x03, 0x02]
    ++ [0x10, 0x00, 0x03, 0x02] ++ [0x00, 0x00, 0x04, 0x05] ++ [0x00, 0x06, 0x04, 0x05]
    ++ [0x20, 0x06, 0x00, 0x05]

/-- The half-step table as a flat image, four bytes a row (20_memory.md R37). -/
def halfStepImage : List Byte :=
  [0x00, 0x01, 0x02, 0x03] ++ [0x00, 0x01, 0x00, 0x13] ++ [0x00, 0x00, 0x02, 0x23]
    ++ [0x00, 0x05, 0x04, 0x03] ++ [0x10, 0x03, 0x04, 0x03] ++ [0x20, 0x05, 0x03, 0x03]

/-- The ROM that `HALF_STEP` selects (00_scope.md R5). -/
def rom (half : Bool) : Memory := Memory.ofImage 0 (if half then halfStepImage else fullStepImage)

/-- `RomRead(a)` (00_scope.md R8); nothing exists at or above 4·`NROWS`. -/
def romRead (half : Bool) (a : Nat) : Option Byte := (rom half).read a

/-- The address of the cell `table[s][p]`: 4·`s` + `p` (20_memory.md R31). -/
def romAddr (s : Nat) (p : Pins) : Nat := 4 * s + p.toNat

/-- A cell exists for every row and every reading (20_memory.md R38 (a)). -/
theorem romRead_total : ∀ (half : Bool) (s : Fin (nrowsOf half)) (p : Pins),
    (romRead half (romAddr s p)).isSome = true := by decide

/-- `Lookup(s, p)` = `RomRead(4*s + p)` (40_decoder_step.md R71). -/
def lookup (half : Bool) (s : Fin (nrowsOf half)) (p : Pins) : Byte :=
  (romRead half (romAddr s p)).get (romRead_total half s p)

end Sys2Proof.Machine
end

