-- ==== Sys2Proof/Machine/Flags.lean ====
section
/-! DEFINITION. The fields of a cell and the direction flag (20_memory.md R32, R33): the codes of
`last_dir`, the block's only status flag (10_state.md R13). -/

namespace Sys2Proof.Machine

/-- The 2-bit code of a direction in `last_dir` (20_memory.md R33). -/
def Dir.code : Dir → BitVec 2
  | .none => 0b00
  | .cw => 0b01
  | .ccw => 0b10

/-- The whole-byte mask of a direction (20_memory.md R33). -/
def Dir.mask : Dir → Byte
  | .none => 0x00
  | .cw => 0x10
  | .ccw => 0x20

/-- The direction of a 2-bit code; 0b11 is none of the three values (20_memory.md R33). -/
def Dir.ofCode (x : BitVec 2) : Option Dir :=
  match x with
  | 0b00#2 => some .none
  | 0b01#2 => some .cw
  | 0b10#2 => some .ccw
  | _ => Option.none

/-- What a flag adds to the count of events: +1 for `CW`, −1 for `CCW` (40_decoder_step.md R74). -/
def Dir.delta : Dir → Int
  | .none => 0
  | .cw => 1
  | .ccw => -1

/-- `cell[3:0]`, the next row (20_memory.md R32). -/
def cellNext (b : Byte) : Nibble := b.extractLsb' 0 4

/-- `cell[5:4]`, the direction flag (20_memory.md R33; 40_decoder_step.md R70). -/
def cellDirBits (b : Byte) : BitVec 2 := b.extractLsb' 4 2

/-- `cell[7:4]`, the whole high nibble (20_memory.md R32). -/
def cellHigh (b : Byte) : Nibble := b.extractLsb' 4 4

/-- Every cell's next row is a row (20_memory.md R38 (b)). -/
theorem cellNext_closed : ∀ (half : Bool) (s : Fin (nrowsOf half)) (p : Pins),
    (cellNext (lookup half s p)).toNat < nrowsOf half := by decide

/-- Every cell's flag is one of the three values (20_memory.md R38 (c)). -/
theorem cellDir_legal : ∀ (half : Bool) (s : Fin (nrowsOf half)) (p : Pins),
    (Dir.ofCode (cellDirBits (lookup half s p))).isSome = true := by decide

/-- The next row that `table[s][p]` names. -/
def nextRow (half : Bool) (s : Fin (nrowsOf half)) (p : Pins) : Fin (nrowsOf half) :=
  ⟨(cellNext (lookup half s p)).toNat, cellNext_closed half s p⟩

/-- The flag that `table[s][p]` carries. -/
def cellFlag (half : Bool) (s : Fin (nrowsOf half)) (p : Pins) : Dir :=
  (Dir.ofCode (cellDirBits (lookup half s p))).get (cellDir_legal half s p)

end Sys2Proof.Machine
end

