-- ==== Sys2Proof/Machine/Counter.lean ====
section
/-! DEFINITION. The position counter with lap tracking: `CounterUpdate`, `SETPOS`, `SETTURNS`
(41_position_counter.md). -/

namespace Sys2Proof.Machine

/-- The counters after a `CW` flag, before the range test (41_position_counter.md R80, R81). -/
def counterCw (c : Config) (pos trn : Int) : Int × Int :=
  let p1 := pos + 1
  if c.maximum ≠ 0 ∧ p1 > c.maximum then
    if c.saturate then (c.maximum, trn) else (0, trn + 1)
  else (p1, trn)

/-- The counters after a `CCW` flag, before the range test (41_position_counter.md R80, R82). -/
def counterCcw (c : Config) (pos trn : Int) : Int × Int :=
  let p1 := pos - 1
  if c.maximum ≠ 0 ∧ p1 < -c.maximum then
    if c.saturate then (-c.maximum, trn) else (0, trn - 1)
  else (p1, trn)

/-- The range test, which comes last (41_position_counter.md R80, R84, R85). -/
def rangeTest (c : Config) (d : Dir) (pos trn : Int) (new : Int × Int) :
    Except Fault (Int × Int) :=
  if new.1 < c.posMin ∨ new.1 > c.posMax then .error (.posRange d pos)
  else if new.2 < c.turnsMin ∨ new.2 > c.turnsMax then .error (.turnsRange d trn)
  else .ok new

/-- `CounterUpdate(d, pos, trn)`, over the exact integers (41_position_counter.md R80). -/
def counterUpdate (c : Config) (d : Dir) (pos trn : Int) : Except Fault (Int × Int) :=
  match d with
  | .none => .ok (pos, trn)
  | .cw => rangeTest c .cw pos trn (counterCw c pos trn)
  | .ccw => rangeTest c .ccw pos trn (counterCcw c pos trn)

/-- `SETPOS v` (41_position_counter.md R88): not checked against `MAX`; nothing else changes. -/
def execSetpos (v : Int) (s : State) : Result := whenDefined s (.next (s.writePosition v))

/-- `SETTURNS v` (41_position_counter.md R89): legal in every mode; nothing else changes. -/
def execSetturns (v : Int) (s : State) : Result := whenDefined s (.next (s.writeTurns v))

end Sys2Proof.Machine
end

