-- ==== Sys2Proof/Machine/Decoder.lean ====
section
/-! DEFINITION. The decode step, command `STEP` (40_decoder_step.md). -/

namespace Sys2Proof.Machine

/-- The step after the lookup: the counters move by the flag, then all four registers are written at
once; a fault leaves no successor (40_decoder_step.md R70, R73). -/
def stepWith (s : State) (r : Fin s.cfg.nrows) (d : Dir) : Result :=
  match counterUpdate s.cfg d s.pos s.trn with
  | .error f => .fault f
  | .ok (newPos, newTurns) =>
    .next { s with
      state := r
      lastDir := d
      position := BitVec.ofInt s.cfg.posW newPos
      turns := BitVec.ofInt s.cfg.turnsW newTurns }

/-- `STEP pins` (40_decoder_step.md R70): look up the cell for the old `state` and the reading, take
its next row and its flag, update the counters by that flag. -/
def execStep (pins : Pins) (s : State) : Result :=
  whenDefined s
    (stepWith s (nextRow s.cfg.halfStep s.state pins) (cellFlag s.cfg.halfStep s.state pins))

end Sys2Proof.Machine
end

