-- ==== Sys2Proof/Syntax.lean ====
section
/-! DEFINITION. The five commands, one constructor per row of spec/opcode_table.json
(30_encoding.md R57), with the operand of R56 already assembled. -/

namespace Sys2Proof

/-- A command of the block (30_encoding.md R57). -/
inductive Instr where
  /-- `NOP`: no operand (42_control.md R96). -/
  | nop
  /-- `STEP pins`: one decode step with the pin reading (40_decoder_step.md R70). -/
  | step (pins : Pins)
  /-- `SETPOS v`: `v` is the signed integer to load (41_position_counter.md R88). -/
  | setpos (v : Int)
  /-- `SETTURNS v`: `v` is the signed integer to load (41_position_counter.md R89). -/
  | setturns (v : Int)
  /-- `INIT`: no operand (42_control.md R95). -/
  | init
  deriving DecidableEq, Repr

end Sys2Proof
end

