-- ==== Sys2Proof/Machine/Dispatch.lean ====
section
/-! DEFINITION. One arm per command. -/

namespace Sys2Proof.Machine

-- The effect of one command on the block (30_encoding.md R57).
def exec (i : Instr) (s : State) : Host.Outcome State Fault Refusal :=
  match i with
  | .nop => Sys2Proof.Machine.execNop s
  | .step pins => Sys2Proof.Machine.execStep pins s
  | .setpos v => Sys2Proof.Machine.execSetpos v s
  | .setturns v => Sys2Proof.Machine.execSetturns v s
  | .init => Sys2Proof.Machine.execInit s

end Sys2Proof.Machine
end

