-- ==== Sys2Proof/Machine/Operands.lean ====
section
/-! DEFINITION. How a command assembles its operand from `arg` (30_encoding.md R56), and back. -/

namespace Sys2Proof.Machine

/-- `sext_N(v)`: the signed integer denoted by the low `n` bits of `v` (00_scope.md R7). -/
def sext {w : Nat} (n : Nat) (v : BitVec w) : Int := (v.extractLsb' 0 n).toInt

/-- `zext_N(v)`: the unsigned integer denoted by the low `n` bits of `v` (00_scope.md R7). -/
def zext {w : Nat} (n : Nat) (v : BitVec w) : Nat := (v.extractLsb' 0 n).toNat

/-- The operand of `STEP`: `pins` = `arg[1:0]`; the bits above are ignored. -/
def pinsOperand {w : Nat} (arg : BitVec w) : Pins := arg.extractLsb' 0 2

/-- The operand of `SETPOS`: `v` = `sext_POS_W(arg[POS_W-1:0])`; the bits above are ignored. -/
def posOperand (c : Config) (arg : BitVec c.argW) : Int := sext c.posW arg

/-- The operand of `SETTURNS`: `v` = `sext_TURNS_W(arg[TURNS_W-1:0])`; the bits above are ignored. -/
def turnsOperand (c : Config) (arg : BitVec c.argW) : Int := sext c.turnsW arg

/-- The `arg` field of `STEP p`; the assembler writes ignored bits as 0 (30_encoding.md R56, R61). -/
def pinsArg (c : Config) (p : Pins) : BitVec c.argW := p.setWidth c.argW

/-- The `arg` field of `SETPOS v`: `v` mod 2^`POS_W`, ignored bits 0 (30_encoding.md R61). -/
def posArg (c : Config) (v : Int) : BitVec c.argW := (BitVec.ofInt c.posW v).setWidth c.argW

/-- The `arg` field of `SETTURNS v`: `v` mod 2^`TURNS_W`, ignored bits 0 (30_encoding.md R61). -/
def turnsArg (c : Config) (v : Int) : BitVec c.argW := (BitVec.ofInt c.turnsW v).setWidth c.argW

end Sys2Proof.Machine
end

