-- ==== Sys2Proof/WellFormed.lean ====
section
/-! DEFINITION. Which configurations and which commands are well-formed. -/

namespace Sys2Proof

/-- A requested configuration is well-formed when `POS_W` ≥ 2, `TURNS_W` ≥ 2 and
0 ≤ `MAX` ≤ `POS_MAX` (00_scope.md R6). -/
def RawConfig.wf (r : RawConfig) : Bool :=
  decide (2 ≤ r.posW) && decide (2 ≤ r.turnsW) && decide (0 ≤ r.maximum)
    && decide (r.maximum ≤ 2 ^ (r.posW - 1) - 1)

/-- A command is well-formed in a configuration when its operand is one the word can carry: `SETPOS`
takes `POS_MIN` to `POS_MAX`, `SETTURNS` takes `TURNS_MIN` to `TURNS_MAX`, every pin reading is legal
(30_encoding.md R56, R61). -/
def Instr.wf (c : Config) : Instr → Bool
  | .nop => true
  | .step _ => true
  | .setpos v => decide (c.posMin ≤ v) && decide (v ≤ c.posMax)
  | .setturns v => decide (c.turnsMin ≤ v) && decide (v ≤ c.turnsMax)
  | .init => true

end Sys2Proof
end

