-- ==== Sys2Proof/Decode.lean ====
section
/-! DEFINITION. The command word, the decoder (total, rejecting reserved opcodes by name) and the
encoder (30_encoding.md R55 to R61). -/

namespace Sys2Proof

/-- A command word: `ARG_W` + 3 bits, `cmd = {cmd_arg, cmd_op}` (30_encoding.md R55). -/
abbrev CmdWord (c : Config) := BitVec (c.argW + 3)

/-- Why a word is no command: its opcode is reserved (30_encoding.md R58). -/
inductive DecodeError where
  | reservedOp (op : Opcode)
  deriving DecidableEq, Repr

/-- `cmd[2:0]`, port `cmd_op` (30_encoding.md R55). -/
def opField {n : Nat} (w : BitVec (n + 3)) : Opcode := w.extractLsb' 0 3

/-- `cmd[ARG_W+2:3]`, port `cmd_arg` (30_encoding.md R55). -/
def argField {n : Nat} (w : BitVec (n + 3)) : BitVec n := w.extractLsb' 3 n

/-- The decoder looks at `op` only (30_encoding.md R57); 0b101 to 0b111 select no command (R58). -/
def decode (c : Config) (w : CmdWord c) : Except DecodeError Instr :=
  match opField w with
  | 0b000#3 => .ok .nop
  | 0b001#3 => .ok (.step (Machine.pinsOperand (argField w)))
  | 0b010#3 => .ok (.setpos (Machine.posOperand c (argField w)))
  | 0b011#3 => .ok (.setturns (Machine.turnsOperand c (argField w)))
  | 0b100#3 => .ok .init
  | op => .error (.reservedOp op)

/-- The opcode of each command (30_encoding.md R57). -/
def opcodeOf : Instr → Opcode
  | .nop => 0b000
  | .step _ => 0b001
  | .setpos _ => 0b010
  | .setturns _ => 0b011
  | .init => 0b100

/-- The `arg` field each command is assembled with, ignored bits 0 (30_encoding.md R61). -/
def argOf (c : Config) : Instr → BitVec c.argW
  | .nop => 0
  | .step p => Machine.pinsArg c p
  | .setpos v => Machine.posArg c v
  | .setturns v => Machine.turnsArg c v
  | .init => 0

/-- The word of a well-formed command (30_encoding.md R55, R61). -/
def encode (c : Config) (i : Instr) : CmdWord c := argOf c i ++ opcodeOf i

/-- One row of the opcode map: a word `w` selects the row when `w & mask = matchBits`
(30_encoding.md R57). -/
structure OpcodeRow where
  mnemonic : String
  mask : Nat
  matchBits : Nat
  deriving DecidableEq, Repr

/-- The opcode map of 30_encoding.md R57, its five commands in order. -/
def opcodeMap : List OpcodeRow :=
  [⟨"NOP", 0x7, 0x0⟩, ⟨"STEP", 0x7, 0x1⟩, ⟨"SETPOS", 0x7, 0x2⟩, ⟨"SETTURNS", 0x7, 0x3⟩,
    ⟨"INIT", 0x7, 0x4⟩]

/-- Whether a command word selects a row (30_encoding.md R57). -/
def OpcodeRow.selects (r : OpcodeRow) (w : Nat) : Bool := w &&& r.mask == r.matchBits

/-- A command's mnemonic in the opcode map. -/
def Instr.mnemonic : Instr → String
  | .nop => "NOP"
  | .step _ => "STEP"
  | .setpos _ => "SETPOS"
  | .setturns _ => "SETTURNS"
  | .init => "INIT"

/-- What the decoder reads from a word numbered as spec/opcode_table.json numbers it: `nbits` bits are
given, every bit above them is 0, and the word is that of the reference configuration (19 bits).
DESIGN CHOICE: log entry 3. -/
def decodeTableWord (nbits w : Nat) : Option Instr :=
  match decode Config.reference (BitVec.ofNat _ (w % 2 ^ nbits)) with
  | .ok i => some i
  | .error _ => none

end Sys2Proof
end

