-- ==== Sys2Proof/Machine/Ports.lean ====
section
/-! DEFINITION. The ports: the command word presented at an edge, the edges a host makes, and what the
output ports show (10_state.md R20, R21; 20_memory.md R52). -/

namespace Sys2Proof.Machine

/-- The command word at an edge, `cmd = {cmd_arg, cmd_op}` (30_encoding.md R55). -/
def Edge.word {c : Config} (e : Edge c) : CmdWord c := e.cmdArg ++ e.cmdOp

/-- The edge that presents a command word: `rst` = 0, `cmd_valid` = 1 (30_encoding.md R55). -/
def Edge.ofWord {c : Config} (w : CmdWord c) : Edge c := ⟨false, true, opField w, argField w⟩

/-- The edge that presents a command as the assembler writes it (30_encoding.md R61). -/
def Edge.ofInstr (c : Config) (i : Instr) : Edge c := .ofWord (encode c i)

/-- The edge with no command: `rst` = 0, `cmd_valid` = 0 (30_encoding.md R59). -/
def Edge.idle (c : Config) : Edge c := ⟨false, false, 0, 0⟩

/-- The edge with `rst` = 1 (70_reset_and_hazards.md R120). -/
def Edge.reset (c : Config) : Edge c := ⟨true, false, 0, 0⟩

/-- The three output ports (10_state.md R20). -/
structure Outputs (c : Config) where
  position : BitVec c.posW
  turns : BitVec c.turnsW
  lastDir : BitVec 2
  deriving DecidableEq, Repr

/-- What the output ports show in the period after the last edge: the registers themselves, all of one
moment (10_state.md R21); no defined value before the first reset (70_reset_and_hazards.md R121).
`state` and the configuration are on no port (10_state.md R19; 42_control.md R97). -/
def State.outputs (s : State) : Option (Outputs s.cfg) :=
  if s.regsDefined then some ⟨s.position, s.turns, s.lastDir.code⟩ else none

/-- What a reader in another clock domain may see over a window of consecutive states: for each port
independently, any value it held in the window, and nothing stronger (20_memory.md R52;
93_implementation_defined.md U6). -/
def crossDomainRead (window : List State) (position turns : Int) (dir : BitVec 2) : Prop :=
  (∃ s ∈ window, s.regsDefined = true ∧ s.position.toInt = position)
    ∧ (∃ s ∈ window, s.regsDefined = true ∧ s.turns.toInt = turns)
    ∧ ∃ s ∈ window, s.regsDefined = true ∧ s.lastDir.code = dir

end Sys2Proof.Machine
end

