-- ==== Sys2Proof/Machine/Step.lean ====
section
/-! DEFINITION. One rising edge of `clk` (00_scope.md R9). -/

namespace Sys2Proof.Machine

/-- The edge that was waiting is over. -/
def State.popEdge (s : State) : State := { s with edges := s.edges.tail }

/-- One step is the reset, one command, or nothing (00_scope.md R9).  `rst` = 1 wins over any command
(70_reset_and_hazards.md R120); with `cmd_valid` = 0 nothing is decoded (30_encoding.md R59); a
reserved opcode is refused (R58).  Where the host presents nothing more, the edge is an idle one
(log entry 2). -/
def step (s : State) : Host.Outcome State Fault Refusal :=
  match s.edges with
  | [] => .next s
  | e :: _ =>
    if e.rst then .next s.popEdge.initialise
    else if e.cmdValid then
      match decode s.cfg e.word with
      | .ok i => exec i s.popEdge
      | .error (.reservedOp op) => .refused (.reservedOp op)
    else .next s.popEdge

/-- `s` with a command word presented at its next edge: bits at and above `nbits` are 0, bits above
the command word are dropped.  The edges after the next one stand as they were (log entry 3). -/
def State.withFetchWord (s : State) (nbits w : Nat) : State :=
  { s with edges := Edge.ofWord (BitVec.ofNat (s.cfg.argW + 3) (w % 2 ^ nbits)) :: s.edges.tail }

end Sys2Proof.Machine
end

