-- ==== Sys2Proof/Machine/Elaborate.lean ====
section
/-! DEFINITION. Elaboration: from a requested configuration to a block (00_scope.md R6;
70_reset_and_hazards.md R121, R122). -/

namespace Sys2Proof.Machine

/-- What a well-formed request guarantees. -/
theorem wf_parts {r : RawConfig} (h : r.wf = true) :
    2 ≤ r.posW ∧ 2 ≤ r.turnsW ∧ (r.maximum.toNat : Int) ≤ 2 ^ (r.posW - 1) - 1 := by
  simp only [RawConfig.wf, Bool.and_eq_true, decide_eq_true_eq] at h
  refine ⟨h.1.1.1, h.1.1.2, ?_⟩
  rw [Int.toNat_of_nonneg h.1.2]
  exact h.2

/-- A well-formed request elaborates to its configuration; any other is refused (`R_BAD_CONFIG`,
60_exceptions.md R106). -/
def elaborate (r : RawConfig) : Except Refusal Config :=
  if h : r.wf = true then
    .ok ⟨r.halfStep, r.maximum.toNat, r.saturate, r.posW, r.turnsW, (wf_parts h).1,
      (wf_parts h).2.1, (wf_parts h).2.2⟩
  else .error (.badConfig r)

/-- A newly powered block: its registers hold no defined value, so whatever `s` has in them nothing
reads them (70_reset_and_hazards.md R121). -/
def State.powerOn (s : State) : State := { s with regsDefined := false }

end Sys2Proof.Machine
end

