-- ==== Sys2Proof/Machine/System.lean ====
section
/-! DEFINITION. Several blocks (60_exceptions.md R116; 10_state.md R24): each has its own registers,
command port and configuration; they share nothing writable. -/

namespace Sys2Proof.Machine

/-- One edge of block `k` among several; nothing happens where there is no block `k`. -/
def stepBlock (blocks : List State) (k : Nat) : Host.Outcome (List State) Fault Refusal :=
  match blocks[k]? with
  | none => .next blocks
  | some s =>
    match step s with
    | .next t => .next (blocks.set k t)
    | .fault f => .fault f
    | .refused r => .refused r

end Sys2Proof.Machine
end

