-- ==== Sys2Proof/Machine/Asm.lean ====
section
/-! DEFINITION. The assembler of the spec's test programs (30_encoding.md R61, R62): text to lines,
lines to the edges the host presents.  The block never sees any of it. -/

namespace Sys2Proof.Machine

/-- `FWD`: one clean forward cycle from the 00 detent (30_encoding.md R62). -/
def fwdCycle : List Instr := [.step 1, .step 3, .step 2, .step 0]

/-- `REV`: one clean reverse cycle from the 00 detent (30_encoding.md R62). -/
def revCycle : List Instr := [.step 2, .step 3, .step 1, .step 0]

/-- `n` copies of a cycle: `FWD n` and `REV n` (30_encoding.md R62). -/
def cycles (n : Nat) (cycle : List Instr) : List Instr := (List.replicate n cycle).flatten

/-- A line of a program, its operand not yet checked (30_encoding.md R61, R62). -/
inductive AsmLine where
  | nop
  | step (p : Int)
  | setpos (v : Int)
  | setturns (v : Int)
  | init
  | idle
  | fwd (n : Nat)
  | rev (n : Nat)
  deriving DecidableEq, Repr

/-- Why the assembler rejects a line. -/
inductive AsmError where
  /-- The line has no form of 30_encoding.md R61 or R62. -/
  | badLine
  /-- An operand outside the range that 30_encoding.md R61 states. -/
  | operandRange (operand : Int)
  deriving DecidableEq, Repr

/-- A command presented at one edge, or rejected because its operand is out of range. -/
def assembleInstr (c : Config) (i : Instr) (operand : Int) : Except AsmError (List (Edge c)) :=
  if i.wf c then .ok [Edge.ofInstr c i] else .error (.operandRange operand)

/-- The edges of one line (30_encoding.md R61, R62). -/
def AsmLine.edges (c : Config) : AsmLine → Except AsmError (List (Edge c))
  | .nop => .ok [Edge.ofInstr c .nop]
  | .step p =>
    if 0 ≤ p ∧ p ≤ 3 then .ok [Edge.ofInstr c (.step (BitVec.ofInt 2 p))] else .error (.operandRange p)
  | .setpos v => assembleInstr c (.setpos v) v
  | .setturns v => assembleInstr c (.setturns v) v
  | .init => .ok [Edge.ofInstr c .init]
  | .idle => .ok [Edge.idle c]
  | .fwd n => .ok ((cycles n fwdCycle).map (Edge.ofInstr c))
  | .rev n => .ok ((cycles n revCycle).map (Edge.ofInstr c))

/-- The edges of a program, one line after another. -/
def assemble (c : Config) : List AsmLine → Except AsmError (List (Edge c))
  | [] => .ok []
  | l :: rest =>
    match l.edges c, assemble c rest with
    | .ok es, .ok fs => .ok (es ++ fs)
    | .error e, _ => .error e
    | .ok _, .error e => .error e

/-- The value of a digit below `base`; letters stand for 10 to 15. -/
def digitValue (base : Nat) (ch : Char) : Option Nat :=
  let n := ch.toNat
  let v :=
    if 48 ≤ n ∧ n ≤ 57 then n - 48
    else if 65 ≤ n ∧ n ≤ 70 then n - 55
    else if 97 ≤ n ∧ n ≤ 102 then n - 87
    else base
  if v < base then some v else none

/-- Digits of a base, the most significant first, after an accumulated value. -/
def digitsValue (base : Nat) : Nat → List Char → Option Nat
  | acc, [] => some acc
  | acc, ch :: rest =>
    match digitValue base ch with
    | some d => digitsValue base (acc * base + d) rest
    | none => none

/-- A number: decimal, or binary with `0b`, or hexadecimal with `0x` (30_encoding.md R61). -/
def parseNat : List Char → Option Nat
  | [] => none
  | '0' :: 'b' :: d :: ds => digitsValue 2 0 (d :: ds)
  | '0' :: 'x' :: d :: ds => digitsValue 16 0 (d :: ds)
  | ds => digitsValue 10 0 ds

/-- A signed number: an optional minus sign before the number (log entry 12). -/
def parseInt : List Char → Option Int
  | '-' :: ds => (parseNat ds).map fun n => -(n : Int)
  | ds => (parseNat ds).map fun n => (n : Int)

/-- A line without its comment: a `;` starts one (30_encoding.md R61). -/
def stripComment : List Char → List Char
  | [] => []
  | ch :: rest => if ch = ';' then [] else ch :: stripComment rest

/-- The words of a line, between spaces and tabs; `cur` is the word being read. -/
def wordsFrom (cur : List Char) : List Char → List (List Char)
  | [] => if cur = [] then [] else [cur]
  | ch :: rest =>
    if ch = ' ' ∨ ch = '\t' then
      if cur = [] then wordsFrom [] rest else cur :: wordsFrom [] rest
    else wordsFrom (cur ++ [ch]) rest

/-- One line of text; `none` for a line that holds no command (30_encoding.md R61, R62). -/
def parseLine (line : List Char) : Except AsmError (Option AsmLine) :=
  match wordsFrom [] (stripComment line) with
  | [] => .ok none
  | [m] =>
    if m = "NOP".toList then .ok (some .nop)
    else if m = "INIT".toList then .ok (some .init)
    else if m = "IDLE".toList then .ok (some .idle)
    else if m = "FWD".toList then .ok (some (.fwd 1))
    else if m = "REV".toList then .ok (some (.rev 1))
    else .error .badLine
  | [m, a] =>
    match parseInt a with
    | none => .error .badLine
    | some v =>
      if m = "STEP".toList then .ok (some (.step v))
      else if m = "SETPOS".toList then .ok (some (.setpos v))
      else if m = "SETTURNS".toList then .ok (some (.setturns v))
      else if m = "FWD".toList then
        if 0 ≤ v then .ok (some (.fwd v.toNat)) else .error (.operandRange v)
      else if m = "REV".toList then
        if 0 ≤ v then .ok (some (.rev v.toNat)) else .error (.operandRange v)
      else .error .badLine
  | _ => .error .badLine

/-- The lines of a text, or the first rejection. -/
def parseProgram : List (List Char) → Except AsmError (List AsmLine)
  | [] => .ok []
  | l :: rest =>
    match parseLine l, parseProgram rest with
    | .ok (some a), .ok as => .ok (a :: as)
    | .ok none, .ok as => .ok as
    | .error e, _ => .error e
    | .ok _, .error e => .error e

end Sys2Proof.Machine
end

