-- ==== Sys2Proof/Safety.lean ====
section
/-! DEFINITION. What counts as a good run, the invariants of the machine, and the terms in which the
spec speaks of walks of the pins (20_memory.md R41; 41_position_counter.md R90, R91;
70_reset_and_hazards.md R130). -/

namespace Sys2Proof.Machine

/-- `k` clock edges, stopping at the first fault or refusal. -/
def runN : Nat → State → Result
  | 0, s => .next s
  | k + 1, s =>
    match step s with
    | .next t => runN k t
    | .fault f => .fault f
    | .refused r => .refused r

/-- A run of `k` edges is good when no fault arose and no command was refused
(70_reset_and_hazards.md R130). -/
def goodRun (k : Nat) (s : State) : Prop := ∃ t, runN k s = .next t

/-- `s` with a command sequence to be presented, one command an edge (20_memory.md R47). -/
def State.presenting (s : State) (is : List Instr) : State :=
  { s with edges := is.map (Edge.ofInstr s.cfg) }

/-- `s` with a sequence of pin readings to be presented, one `STEP` an edge. -/
def State.reading (s : State) (ps : List Pins) : State := s.presenting (ps.map Instr.step)

/-- The commands' own effects, one after another from the left (20_memory.md R47). -/
def foldExec : List Instr → State → Result
  | [], s => .next s
  | i :: is, s =>
    match exec i s with
    | .next t => foldExec is t
    | .fault f => .fault f
    | .refused r => .refused r

/-- The number of `CW` flags minus the number of `CCW` flags emitted over `k` edges of a run of
`STEP`s, as the host reads them on `last_dir` after each. -/
def netFlags : Nat → State → Int
  | 0, _ => 0
  | k + 1, s =>
    match step s with
    | .next t => t.lastDir.delta + netFlags k t
    | .fault _ => 0
    | .refused _ => 0

/-- −`MAX` ≤ `position` ≤ `MAX` (41_position_counter.md R91). -/
def PositionBounded (s : State) : Prop := -(s.cfg.maximum : Int) ≤ s.pos ∧ s.pos ≤ s.cfg.maximum

/-- Whether an edge presents a `SETPOS`: `rst` = 0, `cmd_valid` = 1, opcode 0b010
(30_encoding.md R55, R57). -/
def Edge.presentsSetpos {c : Config} (e : Edge c) : Bool := !e.rst && e.cmdValid && e.cmdOp == 0b010

/-- No edge that waits presents a `SETPOS`. -/
def NoSetposAhead (s : State) : Prop := ∀ e ∈ s.edges, e.presentsSetpos = false

/-- The next edge presents no `SETPOS`, whatever the later ones present; so too where none waits. -/
def NoSetposNext (s : State) : Prop := ∀ e ∈ s.edges.head?, e.presentsSetpos = false

/-- The bound holds where there is one (41_position_counter.md R91). -/
def BoundHolds (s : State) : Prop := s.cfg.maximum ≠ 0 → PositionBounded s

/-- The bound holds, and nothing that waits can break it (41_position_counter.md R91). -/
def BoundKept (s : State) : Prop := NoSetposAhead s ∧ BoundHolds s

/-- The idle rows: `START`, and `MID` in half-step mode (20_memory.md R34, R36). -/
def idleRow (half : Bool) (row : Nat) : Prop := row = 0 ∨ (half = true ∧ row = 3)

/-- A flag stands on `last_dir` only while the FSM is in an idle row, where every flagged cell leads
(20_memory.md R35, R37; 95_test_vectors.md section 3.5). -/
def FlagOnlyInIdleRow (s : State) : Prop := s.lastDir ≠ .none → idleRow s.cfg.halfStep s.row

/-- `turns`·(`MAX` + 1) + `position` (41_position_counter.md R90). -/
def lapValue (s : State) : Int := s.trn * (s.cfg.maximum + 1) + s.pos

/-- A change of phase without a double move: one quarter cycle backward, none, or one forward
(20_memory.md R41). -/
inductive Move where
  | back
  | stay
  | fwd
  deriving DecidableEq, Repr

/-- The change of the unwrapped phase. -/
def Move.delta : Move → Int
  | .back => -1
  | .stay => 0
  | .fwd => 1

/-- The pin reading at an unwrapped phase: 00, 01, 11, 10 and round again (20_memory.md R41). -/
def readingAt (phase : Int) : Pins :=
  match (phase % 4).toNat with
  | 0 => 0b00
  | 1 => 0b01
  | 2 => 0b11
  | _ => 0b10

/-- The readings a walk presents, from a phase. -/
def walkReadings : Int → List Move → List Pins
  | _, [] => []
  | phase, m :: ms => readingAt (phase + m.delta) :: walkReadings (phase + m.delta) ms

/-- The phase at the end of a walk. -/
def walkPhase : Int → List Move → Int
  | phase, [] => phase
  | phase, m :: ms => walkPhase (phase + m.delta) ms

/-- The home reading of a row (20_memory.md R34, R36). -/
def homeReading (half : Bool) (row : Nat) : Pins :=
  if half then
    match row with
    | 0 => 0b00
    | 1 => 0b01
    | 2 => 0b10
    | 3 => 0b11
    | 4 => 0b10
    | _ => 0b01
  else
    match row with
    | 0 => 0b00
    | 1 => 0b01
    | 2 => 0b11
    | 3 => 0b10
    | 4 => 0b10
    | 5 => 0b11
    | _ => 0b01

/-- `off(state)` of the winding invariant (20_memory.md R41). -/
def rowOffset (half : Bool) (row : Nat) : Int :=
  if half then
    match row with
    | 1 => 1
    | 2 => -1
    | 4 => 1
    | 5 => -1
    | _ => 0
  else
    match row with
    | 1 => 1
    | 2 => 2
    | 3 => 3
    | 4 => -1
    | 5 => -2
    | 6 => -3
    | _ => 0

/-- Quarter cycles for one flag: 4 in full-step mode, 2 in half-step mode (20_memory.md R41). -/
def quartersPerFlag (half : Bool) : Int := if half then 2 else 4

/-- Flags in one whole cycle: 1 in full-step mode, 2 in half-step mode. -/
def flagsPerCycle (half : Bool) : Nat := if half then 2 else 1

/-- `s` as if the last direction had been forgotten. -/
def State.forgetDir (s : State) : State := { s with lastDir := .none }

/-- An outcome whose next state forgets the last direction. -/
def forgetDirOutcome : Result → Result
  | .next t => .next t.forgetDir
  | .fault f => .fault f
  | .refused r => .refused r

/-- The word of a command with its ignored bits and its opcode set apart: the used bits of two words
agree (30_encoding.md R56). -/
def sameUsedBits (c : Config) (w w' : CmdWord c) : Prop :=
  opField w = opField w'
    ∧ (opField w = 0b001 → (argField w).extractLsb' 0 2 = (argField w').extractLsb' 0 2)
    ∧ (opField w = 0b010 → (argField w).extractLsb' 0 c.posW = (argField w').extractLsb' 0 c.posW)
    ∧ (opField w = 0b011 →
        (argField w).extractLsb' 0 c.turnsW = (argField w').extractLsb' 0 c.turnsW)

end Sys2Proof.Machine
end

