-- ==== Sys2Proof/Certificates/Slice0/Obligations.lean ====
section
/-! DEFINITION. The statements for the provers, one `def Obligations.<Name> : Prop` each. -/

section

open Sys2Proof Sys2Proof.Machine

/-! ### Reset, edges and the step -/

/-- 10_state.md R22: after reset the FSM is in the start row, both counters are 0, `last_dir` is `NONE`,
and the configuration is the elaborated one.  That `State.reset` is the block of the reference
configuration with no edge waiting is the model's choice (log entries 1 and 2). -/
def Obligations.ResetGivesTheStartState : Prop :=
  (∀ (c : Config) (es : List (Edge c)),
    (State.resetOf c es).cfg = c ∧ (State.resetOf c es).regsDefined = true
      ∧ (State.resetOf c es).row = 0 ∧ (State.resetOf c es).lastDir = .none
      ∧ (State.resetOf c es).pos = 0 ∧ (State.resetOf c es).trn = 0)
    ∧ State.reset = State.resetOf Config.reference []

/-- 70_reset_and_hazards.md R120: at an edge with `rst` = 1 the four registers take the reset values,
whatever they held and whatever the command ports show. -/
def Obligations.ResetEdgeWinsOverAnyCommand : Prop :=
  ∀ (s : State) (e : Edge s.cfg) (rest : List (Edge s.cfg)),
    s.edges = e :: rest → e.rst = true → step s = .next (State.resetOf s.cfg rest)

/-- 30_encoding.md R59: at an edge with `rst` = 0 and `cmd_valid` = 0 no register changes, whatever
`cmd_op` and `cmd_arg` show. -/
def Obligations.IdleEdgeChangesNoRegister : Prop :=
  ∀ (s : State) (op : Opcode) (arg : BitVec s.cfg.argW) (rest : List (Edge s.cfg)),
    s.edges = ⟨false, false, op, arg⟩ :: rest → step s = .next { s with edges := rest }

/-- 00_scope.md R9, 30_encoding.md R55: an edge with `rst` = 0 and `cmd_valid` = 1 whose word decodes to a
command runs that command, the edge being over; where no edge waits nothing happens (the model's choice,
log entry 2). -/
def Obligations.StepRunsTheDecodedCommand : Prop :=
  (∀ (s : State) (op : Opcode) (arg : BitVec s.cfg.argW) (rest : List (Edge s.cfg)) (i : Instr),
    s.edges = ⟨false, true, op, arg⟩ :: rest → decode s.cfg (arg ++ op) = .ok i →
      step s = exec i { s with edges := rest })
    ∧ ∀ s : State, s.edges = [] → step s = .next s

/-- The word given to `withFetchWord` is the command of the very next step (log entry 3). -/
def Obligations.FetchWordIsTheNextCommand : Prop :=
  ∀ (s : State) (nbits w : Nat) (i : Instr),
    decode s.cfg (BitVec.ofNat _ (w % 2 ^ nbits)) = .ok i →
      step (s.withFetchWord nbits w) = exec i { s with edges := s.edges.tail }

/-- 30_encoding.md R58, 60_exceptions.md R106: a command presented with opcode 0b101, 0b110 or 0b111 is
refused, with the opcode recorded; with any other opcode it is not. -/
def Obligations.ReservedOpcodesAreRefused : Prop :=
  ∀ (s : State) (op : Opcode) (arg : BitVec s.cfg.argW) (rest : List (Edge s.cfg)),
    s.edges = ⟨false, true, op, arg⟩ :: rest →
      (op = 0b101 ∨ op = 0b110 ∨ op = 0b111 → step s = .refused (.reservedOp op))
        ∧ ∀ r : Refusal, step s = .refused r →
            r = .reservedOp op ∧ (op = 0b101 ∨ op = 0b110 ∨ op = 0b111)

/-- 70_reset_and_hazards.md R121: before the first reset or `INIT` no output shows a value and `STEP`,
`SETPOS`, `SETTURNS` have no meaning; `INIT` is defined (42_control.md R95), and `NOP`, which reads no
register, changes nothing (log entry 4). -/
def Obligations.BeforeResetOnlyInitAndNopRun : Prop :=
  ∀ s : State, s.regsDefined = false →
    s.outputs = none
      ∧ (∀ p, exec (.step p) s = .fault .beforeReset)
      ∧ (∀ v, exec (.setpos v) s = .fault .beforeReset)
      ∧ (∀ v, exec (.setturns v) s = .fault .beforeReset)
      ∧ exec .init s = .next (State.resetOf s.cfg s.edges)
      ∧ exec .nop s = .next s

/-! ### The commands -/

/-- 42_control.md R96: `NOP` completes in every state and writes no register. -/
def Obligations.NopChangesNothing : Prop := ∀ s : State, exec .nop s = .next s

/-- 42_control.md R95: `INIT` completes in every state and leaves `state` 0, `last_dir` `NONE`, `position` 0
and `turns` 0, the configuration and the waiting edges as they were: the reset state. -/
def Obligations.InitGivesTheResetState : Prop :=
  ∀ s : State, exec .init s = .next (State.resetOf s.cfg s.edges)
    ∧ (State.resetOf s.cfg s.edges).row = 0 ∧ (State.resetOf s.cfg s.edges).lastDir = .none
    ∧ (State.resetOf s.cfg s.edges).pos = 0 ∧ (State.resetOf s.cfg s.edges).trn = 0

/-- 41_position_counter.md R88: for every operand from `POS_MIN` to `POS_MAX`, whatever `MAX` is, `SETPOS v`
completes, `position` holds `v`, and nothing else changes. -/
def Obligations.SetposLoadsPositionOnly : Prop :=
  ∀ (s : State) (v : Int), s.regsDefined = true → s.cfg.posMin ≤ v → v ≤ s.cfg.posMax →
    exec (.setpos v) s = .next { s with position := BitVec.ofInt s.cfg.posW v }
      ∧ (BitVec.ofInt s.cfg.posW v).toInt = v

/-- 41_position_counter.md R89: for every operand from `TURNS_MIN` to `TURNS_MAX`, in every configuration,
`SETTURNS v` completes, `turns` holds `v`, and nothing else changes. -/
def Obligations.SetturnsLoadsTurnsOnly : Prop :=
  ∀ (s : State) (v : Int), s.regsDefined = true → s.cfg.turnsMin ≤ v → v ≤ s.cfg.turnsMax →
    exec (.setturns v) s = .next { s with turns := BitVec.ofInt s.cfg.turnsW v }
      ∧ (BitVec.ofInt s.cfg.turnsW v).toInt = v

/-- 41_position_counter.md R83, 40_decoder_step.md R70: a `STEP` whose cell carries `NONE` completes; the
FSM takes the cell's next row, `last_dir` becomes `NONE`, and `position` and `turns` keep their values,
whatever they are. -/
def Obligations.StepWithoutFlagKeepsTheCounters : Prop :=
  ∀ (s : State) (p : Pins), s.regsDefined = true → cellFlag s.cfg.halfStep s.state p = .none →
    exec (.step p) s
      = .next { s with state := nextRow s.cfg.halfStep s.state p, lastDir := .none }

/-- 41_position_counter.md R81: a `STEP` whose cell carries `CW` adds 1 where the bound does not act;
beyond a bound it pins `position` at `MAX` and leaves `turns` (saturate mode), or sets `position` to 0
and adds 1 to `turns` (wrap mode).  The bound acts when `position` + 1 > `MAX`. -/
def Obligations.StepWithCwCountsForward : Prop :=
  ∀ (s : State) (p : Pins), s.regsDefined = true → cellFlag s.cfg.halfStep s.state p = .cw →
    ((s.cfg.maximum = 0 ∧ s.pos < s.cfg.posMax ∨ s.cfg.maximum ≠ 0 ∧ s.pos + 1 ≤ s.cfg.maximum) →
      exec (.step p) s = .next { s with
        state := nextRow s.cfg.halfStep s.state p, lastDir := .cw,
        position := BitVec.ofInt s.cfg.posW (s.pos + 1) }
        ∧ (BitVec.ofInt s.cfg.posW (s.pos + 1)).toInt = s.pos + 1)
    ∧ (s.cfg.maximum ≠ 0 → s.cfg.maximum < s.pos + 1 → s.cfg.saturate = true →
      exec (.step p) s = .next { s with
        state := nextRow s.cfg.halfStep s.state p, lastDir := .cw,
        position := BitVec.ofInt s.cfg.posW s.cfg.maximum }
        ∧ (BitVec.ofInt s.cfg.posW s.cfg.maximum).toInt = s.cfg.maximum)
    ∧ (s.cfg.maximum ≠ 0 → s.cfg.maximum < s.pos + 1 → s.cfg.saturate = false →
      s.trn < s.cfg.turnsMax →
      exec (.step p) s = .next { s with
        state := nextRow s.cfg.halfStep s.state p, lastDir := .cw,
        position := 0, turns := BitVec.ofInt s.cfg.turnsW (s.trn + 1) }
        ∧ (BitVec.ofInt s.cfg.turnsW (s.trn + 1)).toInt = s.trn + 1)

/-- 41_position_counter.md R82: a `STEP` whose cell carries `CCW` subtracts 1 where the bound does not act;
beyond the lower bound −`MAX` it pins `position` at −`MAX` and leaves `turns` (saturate mode), or sets
`position` to 0 and subtracts 1 from `turns` (wrap mode).  The bound acts when `position` − 1 < −`MAX`. -/
def Obligations.StepWithCcwCountsBackward : Prop :=
  ∀ (s : State) (p : Pins), s.regsDefined = true → cellFlag s.cfg.halfStep s.state p = .ccw →
    ((s.cfg.maximum = 0 ∧ s.cfg.posMin < s.pos
        ∨ s.cfg.maximum ≠ 0 ∧ -(s.cfg.maximum : Int) ≤ s.pos - 1) →
      exec (.step p) s = .next { s with
        state := nextRow s.cfg.halfStep s.state p, lastDir := .ccw,
        position := BitVec.ofInt s.cfg.posW (s.pos - 1) }
        ∧ (BitVec.ofInt s.cfg.posW (s.pos - 1)).toInt = s.pos - 1)
    ∧ (s.cfg.maximum ≠ 0 → s.pos - 1 < -(s.cfg.maximum : Int) → s.cfg.saturate = true →
      exec (.step p) s = .next { s with
        state := nextRow s.cfg.halfStep s.state p, lastDir := .ccw,
        position := BitVec.ofInt s.cfg.posW (-(s.cfg.maximum : Int)) }
        ∧ (BitVec.ofInt s.cfg.posW (-(s.cfg.maximum : Int))).toInt = -(s.cfg.maximum : Int))
    ∧ (s.cfg.maximum ≠ 0 → s.pos - 1 < -(s.cfg.maximum : Int) → s.cfg.saturate = false →
      s.cfg.turnsMin < s.trn →
      exec (.step p) s = .next { s with
        state := nextRow s.cfg.halfStep s.state p, lastDir := .ccw,
        position := 0, turns := BitVec.ofInt s.cfg.turnsW (s.trn - 1) }
        ∧ (BitVec.ofInt s.cfg.turnsW (s.trn - 1)).toInt = s.trn - 1)

/-- 60_exceptions.md R106, 41_position_counter.md R84, R85: after reset a `STEP` faults exactly when it
would take `position` out of range with `MAX` = 0, or `turns` out of range at a wrap; the fault records
the flag and the old value. -/
def Obligations.StepFaultsExactlyOutOfRange : Prop :=
  ∀ (s : State) (p : Pins) (f : Fault), s.regsDefined = true →
    (exec (.step p) s = .fault f ↔
      (f = .posRange (cellFlag s.cfg.halfStep s.state p) s.pos ∧ s.cfg.maximum = 0
        ∧ (cellFlag s.cfg.halfStep s.state p = .cw ∧ s.pos = s.cfg.posMax
          ∨ cellFlag s.cfg.halfStep s.state p = .ccw ∧ s.pos = s.cfg.posMin))
      ∨ (f = .turnsRange (cellFlag s.cfg.halfStep s.state p) s.trn ∧ s.cfg.maximum ≠ 0
        ∧ s.cfg.saturate = false
        ∧ (cellFlag s.cfg.halfStep s.state p = .cw ∧ s.cfg.maximum < s.pos + 1
            ∧ s.trn = s.cfg.turnsMax
          ∨ cellFlag s.cfg.halfStep s.state p = .ccw ∧ s.pos - 1 < -(s.cfg.maximum : Int)
            ∧ s.trn = s.cfg.turnsMin)))

/-- 60_exceptions.md R106: after reset no command but `STEP` faults, and no command is refused. -/
def Obligations.OnlyStepFaultsAfterReset : Prop :=
  ∀ (i : Instr) (s : State), s.regsDefined = true →
    (∀ r, exec i s ≠ .refused r) ∧ (∀ f, exec i s = .fault f → ∃ p, i = .step p)

/-! ### The transition table -/

/-- 40_decoder_step.md R71: `Lookup(s, p)` is the byte at address 4·`s` + `p` of the ROM that `HALF_STEP`
selects. -/
def Obligations.LookupReadsTheCellOfRowAndReading : Prop :=
  ∀ (half : Bool) (s : Fin (nrowsOf half)) (p : Pins),
    romRead half (4 * s + p.toNat) = some (lookup half s p)

/-- 20_memory.md R35: the 28 bytes of the full-step ROM, and the next row and the flag of every cell, rows in
order, readings 00, 01, 10, 11 in order. -/
def Obligations.FullStepTransitionsAreTheSpecs : Prop :=
  ((List.finRange (nrowsOf false)).map fun s => (List.range 4).map fun p =>
    ((nextRow false s (BitVec.ofNat 2 p)).val, cellFlag false s (BitVec.ofNat 2 p)))
  = [[(0, .none), (1, .none), (4, .none), (0, .none)],
     [(0, .none), (1, .none), (0, .none), (2, .none)],
     [(0, .none), (1, .none), (3, .none), (2, .none)],
     [(0, .cw), (0, .none), (3, .none), (2, .none)],
     [(0, .none), (0, .none), (4, .none), (5, .none)],
     [(0, .none), (6, .none), (4, .none), (5, .none)],
     [(0, .ccw), (6, .none), (0, .none), (5, .none)]]
  ∧ (List.range 28).map (romRead false)
    = ([0x00, 0x01, 0x04, 0x00, 0x00, 0x01, 0x00, 0x02, 0x00, 0x01, 0x03, 0x02, 0x10, 0x00, 0x03, 0x02,
        0x00, 0x00, 0x04, 0x05, 0x00, 0x06, 0x04, 0x05, 0x20, 0x06, 0x00, 0x05] : List Byte).map some

/-- 20_memory.md R37: the 24 bytes of the half-step ROM, and the next row and the flag of every cell, rows in
order, readings 00, 01, 10, 11 in order. -/
def Obligations.HalfStepTransitionsAreTheSpecs : Prop :=
  ((List.finRange (nrowsOf true)).map fun s => (List.range 4).map fun p =>
    ((nextRow true s (BitVec.ofNat 2 p)).val, cellFlag true s (BitVec.ofNat 2 p)))
  = [[(0, .none), (1, .none), (2, .none), (3, .none)],
     [(0, .none), (1, .none), (0, .none), (3, .cw)],
     [(0, .none), (0, .none), (2, .none), (3, .ccw)],
     [(0, .none), (5, .none), (4, .none), (3, .none)],
     [(0, .cw), (3, .none), (4, .none), (3, .none)],
     [(0, .ccw), (5, .none), (3, .none), (3, .none)]]
  ∧ (List.range 24).map (romRead true)
    = ([0x00, 0x01, 0x02, 0x03, 0x00, 0x01, 0x00, 0x13, 0x00, 0x00, 0x02, 0x23, 0x00, 0x05, 0x04, 0x03,
        0x10, 0x03, 0x04, 0x03, 0x20, 0x05, 0x03, 0x03] : List Byte).map some

/-- 20_memory.md R31, R38: the ROM has 4·`NROWS` bytes and nothing above; every cell's next row is a row
and its high nibble one of the three flags; exactly the cells that complete a cycle carry a flag; the
cell at a row's home reading is the row itself with `NONE`; the start row is row 0, and every row is
reached from it. -/
def Obligations.TablesObeyTheirLaws : Prop :=
  (∀ c : Config, (startRow c).val = 0) ∧ ∀ half : Bool,
    (∀ a : Nat, (romRead half a).isSome = true ↔ a < 4 * nrowsOf half)
    ∧ (∀ (s : Fin (nrowsOf half)) (p : Pins),
        (cellNext (lookup half s p)).toNat < nrowsOf half
        ∧ ((cellHigh (lookup half s p)).toNat = 0 ∨ (cellHigh (lookup half s p)).toNat = 1
            ∨ (cellHigh (lookup half s p)).toNat = 2)
        ∧ (cellFlag half s p ≠ .none ↔
            (half = false ∧ (s.val = 3 ∨ s.val = 6) ∧ p = 0b00)
            ∨ (half = true ∧ ((s.val = 1 ∨ s.val = 2) ∧ p = 0b11 ∨ (s.val = 4 ∨ s.val = 5) ∧ p = 0b00)))
        ∧ (p = homeReading half s → nextRow half s p = s ∧ cellFlag half s p = .none))
    ∧ ∀ z s : Fin (nrowsOf half), z.val = 0 → ∃ ps : List Pins, ps.foldl (nextRow half) z = s

/-- 20_memory.md R40: a reading presented again finds a cell with `NONE`; the row is fixed from the second
repeat on; and it is fixed already from the first but for four pairs in each table. -/
def Obligations.RepeatedReadingsSettle : Prop :=
  ∀ (half : Bool) (s : Fin (nrowsOf half)) (p : Pins),
    cellFlag half (nextRow half s p) p = .none
    ∧ nextRow half (nextRow half (nextRow half s p) p) p = nextRow half (nextRow half s p) p
    ∧ (nextRow half (nextRow half s p) p ≠ nextRow half s p ↔
        (half = false ∧ ((s.val = 1 ∨ s.val = 6) ∧ p = 0b10 ∨ (s.val = 3 ∨ s.val = 4) ∧ p = 0b01))
        ∨ (half = true ∧ ((s.val = 1 ∨ s.val = 5) ∧ p = 0b10 ∨ (s.val = 2 ∨ s.val = 4) ∧ p = 0b01)))

/-! ### Sequences of readings -/

/-- 40_decoder_step.md R75, 20_memory.md R40: after a `STEP`, any number of `STEP`s with the same reading
complete, leave `position` and `turns` alone and show `NONE`. -/
def Obligations.PollingTheSameReadingCountsOnce : Prop :=
  ∀ (s t : State) (p : Pins) (n : Nat), s.regsDefined = true → exec (.step p) s = .next t →
    ∃ u, runN n (t.reading (List.replicate n p)) = .next u
      ∧ u.cfg = t.cfg ∧ u.pos = t.pos ∧ u.trn = t.trn ∧ (0 < n → u.lastDir = .none)

/-- 40_decoder_step.md R76: a `STEP` that presents 00 ends in `START`, in half-step mode one that presents
11 ends in `MID`, from every state; and no other reading ever makes a flag. -/
def Obligations.DetentReadingsResynchronise : Prop :=
  ∀ (s t : State) (p : Pins), exec (.step p) s = .next t →
    (p = 0b00 → t.row = 0)
    ∧ (s.cfg.halfStep = true → p = 0b11 → t.row = 3)
    ∧ (t.lastDir ≠ .none → p = 0b00 ∨ (s.cfg.halfStep = true ∧ p = 0b11))

/-- 20_memory.md R41, over the machine: whatever the configuration, whatever the counters, along every walk
of the pins without double moves that starts with the FSM in a row at its home reading, the phase turned,
less a cycle's quarters for every net flag, is the change of the row's offset, and the reading is again
the row's home reading. -/
def Obligations.WindingInvariantAlongEveryWalk : Prop :=
  ∀ (s t : State) (phase : Int) (ms : List Move), s.regsDefined = true →
    readingAt phase = homeReading s.cfg.halfStep s.row →
    runN ms.length (s.reading (walkReadings phase ms)) = .next t →
      readingAt (walkPhase phase ms) = homeReading s.cfg.halfStep t.row
      ∧ walkPhase phase ms - phase
          - quartersPerFlag s.cfg.halfStep
            * netFlags ms.length (s.reading (walkReadings phase ms))
        = rowOffset s.cfg.halfStep t.row - rowOffset s.cfg.halfStep s.row

/-- 20_memory.md R41, its consequences with `MAX` = 0: from reset with the pins at 00, a walk of at most
`POS_MAX` moves completes, `position` is the net number of flags, and `position` together with the row
gives back the phase turned. -/
def Obligations.UnboundedPositionFollowsThePhase : Prop :=
  ∀ (c : Config) (ms : List Move), c.maximum = 0 → (ms.length : Int) ≤ c.posMax →
    ∃ t, runN ms.length ((State.resetOf c []).reading (walkReadings 0 ms)) = .next t
      ∧ t.pos = netFlags ms.length ((State.resetOf c []).reading (walkReadings 0 ms))
      ∧ t.trn = 0
      ∧ quartersPerFlag c.halfStep * t.pos + rowOffset c.halfStep t.row = walkPhase 0 ms

/-- 41_position_counter.md R90, along every run of `STEP`s in wrap mode that does not fault, whatever the
readings: `turns`·(`MAX` + 1) + `position` changes by the net number of flags, and `position` stays within
the bound. -/
def Obligations.LapArithmeticAlongEveryRun : Prop :=
  ∀ (s t : State) (ps : List Pins), s.regsDefined = true → s.cfg.maximum ≠ 0 →
    s.cfg.saturate = false → PositionBounded s →
    runN ps.length (s.reading ps) = .next t →
      lapValue t = lapValue s + netFlags ps.length (s.reading ps) ∧ PositionBounded t

/-- The end-to-end scenario of 95_test_vectors.md S7 for every bound, every number of cycles and both
tables: in wrap mode `k` clean forward cycles from reset leave the FSM in `START` and the events counted
as laps of `MAX` + 1. -/
def Obligations.ForwardCyclesCountLaps : Prop :=
  ∀ (c : Config) (k : Nat), c.maximum ≠ 0 → c.saturate = false →
    ((flagsPerCycle c.halfStep * k / (c.maximum + 1) : Nat) : Int) ≤ c.turnsMax →
    ∃ t, runN (4 * k) ((State.resetOf c []).presenting (cycles k fwdCycle)) = .next t
      ∧ t.row = 0
      ∧ t.pos = (flagsPerCycle c.halfStep * k % (c.maximum + 1) : Nat)
      ∧ t.trn = (flagsPerCycle c.halfStep * k / (c.maximum + 1) : Nat)

/-- 95_test_vectors.md S5, reverse, for every bound, every number of cycles and both tables. -/
def Obligations.ReverseCyclesCountLaps : Prop :=
  ∀ (c : Config) (k : Nat), c.maximum ≠ 0 → c.saturate = false →
    c.turnsMin ≤ -((flagsPerCycle c.halfStep * k / (c.maximum + 1) : Nat) : Int) →
    ∃ t, runN (4 * k) ((State.resetOf c []).presenting (cycles k revCycle)) = .next t
      ∧ t.row = 0
      ∧ t.pos = -((flagsPerCycle c.halfStep * k % (c.maximum + 1) : Nat) : Int)
      ∧ t.trn = -((flagsPerCycle c.halfStep * k / (c.maximum + 1) : Nat) : Int)

/-- 95_test_vectors.md S4, for every bound, every number of cycles, both tables and both directions: in
saturate mode `position` is pinned at the bound and `turns` stays 0. -/
def Obligations.CyclesSaturateAtTheBound : Prop :=
  ∀ (c : Config) (k : Nat), c.maximum ≠ 0 → c.saturate = true →
    (∃ t, runN (4 * k) ((State.resetOf c []).presenting (cycles k fwdCycle)) = .next t
      ∧ t.row = 0 ∧ t.trn = 0 ∧ t.pos = min (flagsPerCycle c.halfStep * k : Nat) c.maximum)
    ∧ ∃ t, runN (4 * k) ((State.resetOf c []).presenting (cycles k revCycle)) = .next t
      ∧ t.row = 0 ∧ t.trn = 0
      ∧ t.pos = -((min (flagsPerCycle c.halfStep * k) c.maximum : Nat) : Int)

/-! ### Invariants and whole-machine rules -/

/-- 41_position_counter.md R91: only `SETPOS` can break the bound.  A step whose own edge presents no
`SETPOS` keeps it, whatever later edges present; and the bound together with no `SETPOS` waiting at all is
kept by every step, so it holds along a whole run. -/
def Obligations.EveryStepKeepsTheBound : Prop :=
  (∀ s t : State, NoSetposNext s → BoundHolds s → step s = .next t → BoundHolds t)
    ∧ ∀ s t : State, BoundKept s → step s = .next t → BoundKept t

/-- 41_position_counter.md R91: the bound holds after reset, whatever edges are to come; and with no `SETPOS`
among them, what every step keeps holds there. -/
def Obligations.BoundHoldsAtReset : Prop :=
  ∀ (c : Config) (es : List (Edge c)), BoundHolds (State.resetOf c es)
    ∧ (NoSetposAhead (State.resetOf c es) → BoundKept (State.resetOf c es))

/-- A flag stands on `last_dir` only in an idle row: every step keeps it (95_test_vectors.md section 3.5
says so of the full-step table; for the half-step table it is read from 20_memory.md R37). -/
def Obligations.EveryStepKeepsFlagsInIdleRows : Prop :=
  ∀ s t : State, FlagOnlyInIdleRow s → step s = .next t → FlagOnlyInIdleRow t

/-- A flag stands on `last_dir` only in an idle row: it holds after reset. -/
def Obligations.FlagsInIdleRowsAtReset : Prop :=
  ∀ (c : Config) (es : List (Edge c)), FlagOnlyInIdleRow (State.resetOf c es)

/-- 10_state.md R15, 41_position_counter.md R84, R91: outside wrap mode no `STEP` changes `turns`, and in
no mode does one change it without a flag. -/
def Obligations.StepMovesTurnsOnlyAtAWrap : Prop :=
  ∀ (s t : State) (p : Pins), exec (.step p) s = .next t → t.trn ≠ s.trn →
    s.cfg.maximum ≠ 0 ∧ s.cfg.saturate = false ∧ t.pos = 0
      ∧ (t.lastDir = .cw ∧ t.trn = s.trn + 1 ∨ t.lastDir = .ccw ∧ t.trn = s.trn - 1)

/-- 10_state.md R17, 20_memory.md R30, R50: no step changes the configuration or a byte of the ROM.  That
registers once defined stay defined is read from 70_reset_and_hazards.md R121 (DEDUCED, log entry 4). -/
def Obligations.NoStepChangesConfigurationOrRom : Prop :=
  ∀ s t : State, step s = .next t →
    t.cfg = s.cfg ∧ (∀ a, romRead t.cfg.halfStep a = romRead s.cfg.halfStep a)
      ∧ (s.regsDefined = true → t.regsDefined = true)

/-- 10_state.md R13, 40_decoder_step.md R70: `last_dir` decides nothing: two runs that start alike but for
it end alike but for it, in the same fault, or in the same refusal. -/
def Obligations.LastDirDecidesNothing : Prop :=
  ∀ (s s' : State) (k : Nat), s.forgetDir = s'.forgetDir →
    forgetDirOutcome (runN k s) = forgetDirOutcome (runN k s')

/-- 40_decoder_step.md R73: the next row and the flag do not depend on the counters. -/
def Obligations.CountersDoNotSteerTheFsm : Prop :=
  ∀ (s t u : State) (p : Pins) (x : BitVec s.cfg.posW) (y : BitVec s.cfg.turnsW),
    exec (.step p) s = .next t → exec (.step p) { s with position := x, turns := y } = .next u →
      u.row = t.row ∧ u.lastDir = t.lastDir

/-- 20_memory.md R47: the run of a command sequence is the fold of the commands' own effects, from the
left. -/
def Obligations.RunIsTheFoldOfItsCommands : Prop :=
  ∀ (s : State) (is : List Instr), (∀ i ∈ is, i.wf s.cfg = true) →
    runN is.length (s.presenting is) = foldExec is (s.presenting [])

/-- 60_exceptions.md R116: an edge of one block leaves every other block as it was and takes nothing from
the others.  That several blocks are a list in which one block takes an edge at a time, and that a fault or
refusal of the block that takes the edge is the outcome of the whole edge, is the model's choice (DESIGN
CHOICE, log entry 11). -/
def Obligations.BlocksDoNotAffectEachOther : Prop :=
  ∀ (bs : List State) (k : Nat) (s : State), bs[k]? = some s →
    (∀ t, step s = .next t → ∃ bs', stepBlock bs k = .next bs'
      ∧ bs'[k]? = some t ∧ ∀ j, j ≠ k → bs'[j]? = bs[j]?)
    ∧ (∀ f, step s = .fault f ↔ stepBlock bs k = .fault f)
    ∧ ∀ r, step s = .refused r ↔ stepBlock bs k = .refused r

/-- 10_state.md R13, R20, R21: after reset the ports show the registers, each whole, and `last_dir` as its
code 0b00, 0b01 or 0b10. -/
def Obligations.OutputsShowTheRegisters : Prop :=
  ∀ s : State, s.regsDefined = true → ∃ o, s.outputs = some o
    ∧ o.position.toInt = s.pos ∧ o.turns.toInt = s.trn
    ∧ (o.lastDir = 0b00 ↔ s.lastDir = .none) ∧ (o.lastDir = 0b01 ↔ s.lastDir = .cw)
    ∧ (o.lastDir = 0b10 ↔ s.lastDir = .ccw)

/-! ### Encoding and configuration -/

/-- 30_encoding.md R55 to R57, R61: decoding the encoding of a well-formed command gives it back, in every
configuration. -/
def Obligations.DecodeOfEncodeIsTheCommand : Prop :=
  ∀ (c : Config) (i : Instr), i.wf c = true → decode c (encode c i) = .ok i

/-- 30_encoding.md R56: bits of `arg` that a command does not use have no effect. -/
def Obligations.IgnoredArgumentBitsHaveNoEffect : Prop :=
  ∀ (c : Config) (w w' : CmdWord c), sameUsedBits c w w' → decode c w = decode c w'

/-- 30_encoding.md R57, R58: a word decodes to a command of a row exactly when it selects the row, and is
rejected, its opcode named, exactly when its opcode is one of the three reserved ones. -/
def Obligations.DecoderFollowsTheOpcodeMap : Prop :=
  ∀ (c : Config) (w : CmdWord c),
    (∀ r ∈ opcodeMap, r.selects w.toNat = true ↔ ∃ i, decode c w = .ok i ∧ i.mnemonic = r.mnemonic)
    ∧ ∀ op, decode c w = .error (.reservedOp op) ↔ op = opField w ∧ 5 ≤ (opField w).toNat

/-- 30_encoding.md R56, 41_position_counter.md R88, R89: every operand the decoder gives is one the
register can hold. -/
def Obligations.DecodedCommandsAreWellFormed : Prop :=
  ∀ (c : Config) (w : CmdWord c) (i : Instr), decode c w = .ok i → i.wf c = true

/-- 30_encoding.md R61: words written out from the spec's encodings, in the reference instantiation. -/
def Obligations.WordsOfTheSpecDecode : Prop :=
  decode Config.reference 0x00000#19 = .ok .nop
    ∧ decode Config.reference 0x00011#19 = .ok (.step 0b10)
    ∧ decode Config.reference 0x7FFEA#19 = .ok (.setpos (-3))
    ∧ decode Config.reference 0x40003#19 = .ok (.setturns (-32768))
    ∧ decode Config.reference 0x00004#19 = .ok .init
    ∧ decode Config.reference 0x00005#19 = .error (.reservedOp 0b101)

/-- 00_scope.md R6, 60_exceptions.md R106: elaboration gives a requested configuration exactly when
`POS_W` ≥ 2, `TURNS_W` ≥ 2 and 0 ≤ `MAX` ≤ `POS_MAX`, with the values asked for, and otherwise refuses it
and records it. -/
def Obligations.ElaborationRefusesIllFormedConfigurations : Prop :=
  ∀ r : RawConfig,
    ((2 ≤ r.posW ∧ 2 ≤ r.turnsW ∧ 0 ≤ r.maximum ∧ r.maximum ≤ 2 ^ (r.posW - 1) - 1) →
      ∃ c, elaborate r = .ok c ∧ c.halfStep = r.halfStep ∧ (c.maximum : Int) = r.maximum
        ∧ c.saturate = r.saturate ∧ c.posW = r.posW ∧ c.turnsW = r.turnsW)
    ∧ (¬ (2 ≤ r.posW ∧ 2 ≤ r.turnsW ∧ 0 ≤ r.maximum ∧ r.maximum ≤ 2 ^ (r.posW - 1) - 1) →
      elaborate r = .error (.badConfig r))

end
end

