-- ==== Sys2Proof/Laws/State.lean ====
section
/-! SUPPORT. One lemma per field per register update, and what the registers can hold. -/

namespace Sys2Proof.Machine

variable (s : State)

/-! ### Updates -/

@[simp] theorem writePosition_cfg (v : Int) : (s.writePosition v).cfg = s.cfg := rfl
@[simp] theorem writePosition_regsDefined (v : Int) :
    (s.writePosition v).regsDefined = s.regsDefined := rfl
@[simp] theorem writePosition_row (v : Int) : (s.writePosition v).row = s.row := rfl
@[simp] theorem writePosition_lastDir (v : Int) : (s.writePosition v).lastDir = s.lastDir := rfl
@[simp] theorem writePosition_trn (v : Int) : (s.writePosition v).trn = s.trn := rfl
@[simp] theorem writePosition_edges (v : Int) : (s.writePosition v).edges = s.edges := rfl

@[simp] theorem writeTurns_cfg (v : Int) : (s.writeTurns v).cfg = s.cfg := rfl
@[simp] theorem writeTurns_regsDefined (v : Int) :
    (s.writeTurns v).regsDefined = s.regsDefined := rfl
@[simp] theorem writeTurns_row (v : Int) : (s.writeTurns v).row = s.row := rfl
@[simp] theorem writeTurns_lastDir (v : Int) : (s.writeTurns v).lastDir = s.lastDir := rfl
@[simp] theorem writeTurns_pos (v : Int) : (s.writeTurns v).pos = s.pos := rfl
@[simp] theorem writeTurns_edges (v : Int) : (s.writeTurns v).edges = s.edges := rfl

@[simp] theorem initialise_cfg : s.initialise.cfg = s.cfg := rfl
@[simp] theorem initialise_regsDefined : s.initialise.regsDefined = true := rfl
@[simp] theorem initialise_row : s.initialise.row = 0 := rfl
@[simp] theorem initialise_lastDir : s.initialise.lastDir = .none := rfl
@[simp] theorem initialise_pos : s.initialise.pos = 0 := BitVec.toInt_zero
@[simp] theorem initialise_trn : s.initialise.trn = 0 := BitVec.toInt_zero
@[simp] theorem initialise_edges : s.initialise.edges = s.edges := rfl

@[simp] theorem popEdge_cfg : s.popEdge.cfg = s.cfg := rfl
@[simp] theorem popEdge_regsDefined : s.popEdge.regsDefined = s.regsDefined := rfl
@[simp] theorem popEdge_row : s.popEdge.row = s.row := rfl
@[simp] theorem popEdge_lastDir : s.popEdge.lastDir = s.lastDir := rfl
@[simp] theorem popEdge_pos : s.popEdge.pos = s.pos := rfl
@[simp] theorem popEdge_trn : s.popEdge.trn = s.trn := rfl
@[simp] theorem popEdge_edges : s.popEdge.edges = s.edges.tail := rfl

/-! ### The block after reset -/

section resetOf
variable (c : Config) (es : List (Edge c))

@[simp] theorem resetOf_cfg : (State.resetOf c es).cfg = c := rfl
@[simp] theorem resetOf_regsDefined : (State.resetOf c es).regsDefined = true := rfl
@[simp] theorem resetOf_row : (State.resetOf c es).row = 0 := rfl
@[simp] theorem resetOf_lastDir : (State.resetOf c es).lastDir = .none := rfl
@[simp] theorem resetOf_edges : (State.resetOf c es).edges = es := rfl

end resetOf

/-! ### What the registers hold -/

/-- A value of `POS_W` bits comes back from the register as it was written. -/
theorem toInt_ofInt_posW (c : Config) {v : Int} (h : c.posMin ≤ v) (h' : v ≤ c.posMax) :
    (BitVec.ofInt c.posW v).toInt = v := by
  have hw := c.posW_ge
  unfold Config.posMin at h
  unfold Config.posMax at h'
  exact BitVec.toInt_ofInt_eq_self (by omega) h (by omega)

/-- A value of `TURNS_W` bits comes back from the register as it was written. -/
theorem toInt_ofInt_turnsW (c : Config) {v : Int} (h : c.turnsMin ≤ v) (h' : v ≤ c.turnsMax) :
    (BitVec.ofInt c.turnsW v).toInt = v := by
  have hw := c.turnsW_ge
  unfold Config.turnsMin at h
  unfold Config.turnsMax at h'
  exact BitVec.toInt_ofInt_eq_self (by omega) h (by omega)

/-- `position` lies in its range. -/
theorem pos_range : s.cfg.posMin ≤ s.pos ∧ s.pos ≤ s.cfg.posMax :=
  ⟨BitVec.le_toInt s.position, Int.le_sub_one_of_lt (BitVec.toInt_lt (x := s.position))⟩

/-- `turns` lies in its range. -/
theorem trn_range : s.cfg.turnsMin ≤ s.trn ∧ s.trn ≤ s.cfg.turnsMax :=
  ⟨BitVec.le_toInt s.turns, Int.le_sub_one_of_lt (BitVec.toInt_lt (x := s.turns))⟩

/-- Both ends of `position`'s range are there, 0 lies inside, and ±`MAX` too (00_scope.md R6). -/
theorem maximum_range (c : Config) :
    c.posMin = -c.posMax - 1 ∧ (c.maximum : Int) ≤ c.posMax ∧ 1 ≤ c.posMax := by
  have h := c.maximum_le
  have hw := c.posW_ge
  obtain ⟨k, hk⟩ : ∃ k, c.posW - 1 = k + 1 := ⟨c.posW - 2, by omega⟩
  have h2 : (1 : Int) ≤ 2 ^ k := one_le_pow₀ (by norm_num)
  simp only [Config.posMin, Config.posMax, hk, pow_succ] at h ⊢
  omega

/-- Both ends of `turns`'s range are there and 0 lies inside. -/
theorem turns_range (c : Config) : c.turnsMin = -c.turnsMax - 1 ∧ 1 ≤ c.turnsMax := by
  have hw := c.turnsW_ge
  obtain ⟨k, hk⟩ : ∃ k, c.turnsW - 1 = k + 1 := ⟨c.turnsW - 2, by omega⟩
  have h2 : (1 : Int) ≤ 2 ^ k := one_le_pow₀ (by norm_num)
  simp only [Config.turnsMin, Config.turnsMax, hk, pow_succ]
  omega

end Sys2Proof.Machine
end

