-- ==== Sys2Proof/Laws/Counter.lean ====
section
/-! SUPPORT. What the counter update and a decode step can do, said once. -/

namespace Sys2Proof.Machine

/-- A range test that passes gives the pair it was given, which lies in range. -/
theorem rangeTest_ok {c : Config} {d : Dir} {pos trn : Int} {new out : Int × Int}
    (h : rangeTest c d pos trn new = .ok out) :
    out = new ∧ c.posMin ≤ new.1 ∧ new.1 ≤ c.posMax ∧ c.turnsMin ≤ new.2 ∧ new.2 ≤ c.turnsMax := by
  unfold rangeTest at h
  split at h
  · cases h
  · split at h
    · cases h
    · rename_i h1 h2
      cases h
      exact ⟨rfl, by omega, by omega, by omega, by omega⟩

/-- A range test passes on a pair in range. -/
theorem rangeTest_of_range {c : Config} {d : Dir} {pos trn : Int} {new : Int × Int}
    (h1 : c.posMin ≤ new.1) (h2 : new.1 ≤ c.posMax) (h3 : c.turnsMin ≤ new.2)
    (h4 : new.2 ≤ c.turnsMax) : rangeTest c d pos trn new = .ok new := by
  unfold rangeTest
  rw [if_neg (by omega), if_neg (by omega)]

/-- The counters of a state whose counters are in range stay in range. -/
theorem counterUpdate_ok_range {s : State} {d : Dir} {out : Int × Int}
    (h : counterUpdate s.cfg d s.pos s.trn = .ok out) :
    s.cfg.posMin ≤ out.1 ∧ out.1 ≤ s.cfg.posMax
      ∧ s.cfg.turnsMin ≤ out.2 ∧ out.2 ≤ s.cfg.turnsMax := by
  have hp := pos_range s
  have ht := trn_range s
  cases d with
  | none => cases h; exact ⟨hp.1, hp.2, ht.1, ht.2⟩
  | cw => obtain ⟨rfl, hr⟩ := rangeTest_ok h; exact hr
  | ccw => obtain ⟨rfl, hr⟩ := rangeTest_ok h; exact hr

/-- The state after a decode step that completes. -/
def stepTarget (s : State) (r : Fin s.cfg.nrows) (d : Dir) (out : Int × Int) : State :=
  { s with
    state := r
    lastDir := d
    position := BitVec.ofInt s.cfg.posW out.1
    turns := BitVec.ofInt s.cfg.turnsW out.2 }

/-- Everything a decode step can do when it answers a next state. -/
theorem execStep_next {p : Pins} {s t : State} (h : execStep p s = .next t) :
    s.regsDefined = true ∧ ∃ out,
      counterUpdate s.cfg (cellFlag s.cfg.halfStep s.state p) s.pos s.trn = .ok out
      ∧ t = stepTarget s (nextRow s.cfg.halfStep s.state p) (cellFlag s.cfg.halfStep s.state p) out := by
  unfold execStep whenDefined at h
  split at h
  · rename_i hd
    refine ⟨hd, ?_⟩
    unfold stepWith at h
    split at h
    · cases h
    · rename_i np nt hc
      cases h
      exact ⟨(np, nt), hc, rfl⟩
  · cases h

/-- A decode step completes when the counter update does. -/
theorem execStep_of_ok {p : Pins} {s : State} {out : Int × Int} (hd : s.regsDefined = true)
    (hc : counterUpdate s.cfg (cellFlag s.cfg.halfStep s.state p) s.pos s.trn = .ok out) :
    execStep p s = .next (stepTarget s (nextRow s.cfg.halfStep s.state p)
      (cellFlag s.cfg.halfStep s.state p) out) := by
  simp [execStep, whenDefined, hd, stepWith, hc, stepTarget]

/-- The registers of a completed decode step, as numbers. -/
theorem stepTarget_values {s : State} {r : Fin s.cfg.nrows} {d : Dir} {out : Int × Int}
    (h : counterUpdate s.cfg d s.pos s.trn = .ok out) :
    (stepTarget s r d out).pos = out.1 ∧ (stepTarget s r d out).trn = out.2
      ∧ (stepTarget s r d out).row = r ∧ (stepTarget s r d out).lastDir = d
      ∧ (stepTarget s r d out).cfg = s.cfg := by
  obtain ⟨h1, h2, h3, h4⟩ := counterUpdate_ok_range h
  exact ⟨toInt_ofInt_posW _ h1 h2, toInt_ofInt_turnsW _ h3 h4, rfl, rfl, rfl⟩

end Sys2Proof.Machine
end

