-- ==== Sys2Proof/Laws/Encoding.lean ====
section
/-! SUPPORT. The two fields of a command word (30_encoding.md R55). -/

namespace Sys2Proof

@[simp] theorem opField_append {n : Nat} (arg : BitVec n) (op : Opcode) :
    opField (arg ++ op) = op := by
  unfold opField
  ext i hi
  simp [BitVec.getElem_extractLsb', BitVec.getLsbD_append, hi]

@[simp] theorem argField_append {n : Nat} (arg : BitVec n) (op : Opcode) :
    argField (arg ++ op) = arg := by
  unfold argField
  ext i hi
  simp [BitVec.getElem_extractLsb', BitVec.getLsbD_append, hi]

/-- A command word is its two fields put together. -/
theorem append_fields {n : Nat} (w : BitVec (n + 3)) : argField w ++ opField w = w := by
  unfold argField opField
  ext i hi
  by_cases h : i < 3 <;> simp

@[simp] theorem Machine.Edge.word_ofWord {c : Config} (w : CmdWord c) :
    (Machine.Edge.ofWord w).word = w := append_fields w

@[simp] theorem Machine.Edge.rst_ofWord {c : Config} (w : CmdWord c) :
    (Machine.Edge.ofWord w).rst = false := rfl

@[simp] theorem Machine.Edge.cmdValid_ofWord {c : Config} (w : CmdWord c) :
    (Machine.Edge.ofWord w).cmdValid = true := rfl

/-- Narrowing a widened vector to its own width gives it back. -/
theorem extract_setWidth {n m : Nat} (h : n ≤ m) (x : BitVec n) :
    (x.setWidth m).extractLsb' 0 n = x := by
  ext i hi
  simp [hi, show i < m by omega]

end Sys2Proof
end

