-- ==== Sys2Proof/Laws/PerInstr.lean ====
section
/-! SUPPORT. Facts said of every command, one lemma a constructor. -/

/-- The opcode field of a command's word is the opcode of its row (30_encoding.md R57). -/
def Sys2Proof.Laws.OpcodeInWord.Statement (i : Sys2Proof.Instr) : Prop :=
  ∀ c : Sys2Proof.Config,
    Sys2Proof.opField (Sys2Proof.encode c i) = Sys2Proof.opcodeOf i
      ∧ ∃ r ∈ Sys2Proof.opcodeMap,
        r.mnemonic = i.mnemonic ∧ r.matchBits = (Sys2Proof.opcodeOf i).toNat

namespace Sys2Proof.Laws.OpcodeInWord

theorem nop : Statement .nop := fun _ => ⟨opField_append _ _, by decide⟩

theorem step (p : Pins) : Statement (.step p) :=
  fun _ => ⟨opField_append _ _, ⟨"STEP", 0x7, 0x1⟩, by decide, rfl, rfl⟩

theorem setpos (v : Int) : Statement (.setpos v) :=
  fun _ => ⟨opField_append _ _, ⟨"SETPOS", 0x7, 0x2⟩, by decide, rfl, rfl⟩

theorem setturns (v : Int) : Statement (.setturns v) :=
  fun _ => ⟨opField_append _ _, ⟨"SETTURNS", 0x7, 0x3⟩, by decide, rfl, rfl⟩

theorem init : Statement .init := fun _ => ⟨opField_append _ _, by decide⟩

end Sys2Proof.Laws.OpcodeInWord
end

