-- ==== Sys2Proof/Laws/Rom.lean ====
section
/-! SUPPORT. The ROM is in canonical form, and reading one address. -/

namespace Sys2Proof.Machine

/-- Both ROMs are in canonical form; nothing writes a memory, so nothing can break it. -/
theorem rom_wf : ∀ half : Bool, Memory.wf (rom half) = true := by decide

@[simp] theorem Memory.read_nil (a : Nat) : Memory.read [] a = none := rfl

@[simp] theorem Memory.read_cons (a x : Nat) (b : Byte) (rest : Memory) :
    Memory.read ((a, b) :: rest) x = if a = x then some b else rest.read x := rfl

/-- Reading an image laid out from an address. -/
theorem Memory.read_ofImage (bytes : List Byte) (base x : Nat) :
    (Memory.ofImage base bytes).read x = if base ≤ x then bytes[x - base]? else none := by
  induction bytes generalizing base with
  | nil => simp [Memory.ofImage]
  | cons b rest ih =>
    simp only [Memory.ofImage, Memory.read_cons, ih]
    by_cases h : base = x
    · subst h; simp
    · by_cases hle : base ≤ x
      · obtain ⟨k, hk⟩ : ∃ k, x - base = k + 1 := ⟨x - base - 1, by omega⟩
        have hk' : x - (base + 1) = k := by omega
        simp [h, hle, show base + 1 ≤ x by omega, hk, hk']
      · simp [h, hle, show ¬ base + 1 ≤ x by omega]

/-- The ROM's bytes are its image's. -/
theorem romRead_eq (half : Bool) (a : Nat) :
    romRead half a = (if half then halfStepImage else fullStepImage)[a]? := by
  simp [romRead, rom, Memory.read_ofImage]

/-- The code of a direction is read back as the direction. -/
@[simp] theorem Dir.ofCode_code (d : Dir) : Dir.ofCode d.code = some d := by cases d <;> rfl

/-- The whole-byte mask of a direction has its code in bits 5:4 (20_memory.md R33). -/
theorem Dir.cellDirBits_mask (d : Dir) : cellDirBits d.mask = d.code := by cases d <;> rfl

end Sys2Proof.Machine
end

