-- ==== Sys2Proof/Laws/Step.lean ====
section
/-! SUPPORT. Everything one clock edge can do when it answers a next state. -/

namespace Sys2Proof.Machine

/-- Everything a command can do when it answers a next state. -/
theorem exec_next {i : Instr} {s t : State} (h : exec i s = .next t) :
    (i = .nop ∧ t = s)
    ∨ (∃ p, i = .step p ∧ execStep p s = .next t)
    ∨ (∃ v, i = .setpos v ∧ s.regsDefined = true ∧ t = s.writePosition v)
    ∨ (∃ v, i = .setturns v ∧ s.regsDefined = true ∧ t = s.writeTurns v)
    ∨ (i = .init ∧ t = s.initialise) := by
  cases i with
  | nop => cases h; exact .inl ⟨rfl, rfl⟩
  | step p => exact .inr (.inl ⟨p, rfl, h⟩)
  | setpos v =>
    simp only [exec, execSetpos, whenDefined] at h
    split at h
    · rename_i hd; cases h; exact .inr (.inr (.inl ⟨v, rfl, hd, rfl⟩))
    · cases h
  | setturns v =>
    simp only [exec, execSetturns, whenDefined] at h
    split at h
    · rename_i hd; cases h; exact .inr (.inr (.inr (.inl ⟨v, rfl, hd, rfl⟩)))
    · cases h
  | init => cases h; exact .inr (.inr (.inr (.inr ⟨rfl, rfl⟩)))

/-- Everything a clock edge can do when it answers a next state. -/
theorem step_next {s t : State} (h : step s = .next t) :
    (s.edges = [] ∧ t = s)
    ∨ ∃ e rest, s.edges = e :: rest
      ∧ ((e.rst = true ∧ t = s.popEdge.initialise)
        ∨ (e.rst = false ∧ e.cmdValid = true
            ∧ ∃ i, decode s.cfg e.word = .ok i ∧ exec i s.popEdge = .next t)
        ∨ (e.rst = false ∧ e.cmdValid = false ∧ t = s.popEdge)) := by
  unfold step at h
  split at h
  · rename_i he; cases h; exact .inl ⟨he, rfl⟩
  · rename_i e rest he
    refine .inr ⟨e, rest, he, ?_⟩
    split at h
    · rename_i hr; cases h; exact .inl ⟨hr, rfl⟩
    · rename_i hr
      have hr := Bool.eq_false_iff.mpr hr
      split at h
      · rename_i hv
        split at h
        · rename_i i hi; exact .inr (.inl ⟨hr, hv, i, hi, h⟩)
        · cases h
      · rename_i hv; cases h; exact .inr (.inr ⟨hr, Bool.eq_false_iff.mpr hv, rfl⟩)

/-- A command changes neither the configuration nor what waits, and leaves defined registers
defined. -/
theorem exec_next_frame {i : Instr} {s t : State} (h : exec i s = .next t) :
    t.cfg = s.cfg ∧ (s.regsDefined = true → t.regsDefined = true) := by
  obtain ⟨_, rfl⟩ | ⟨p, _, h⟩ | ⟨v, _, _, rfl⟩ | ⟨v, _, _, rfl⟩ | ⟨_, rfl⟩ := exec_next h
  · exact ⟨rfl, id⟩
  · obtain ⟨hd, out, _, rfl⟩ := execStep_next h; exact ⟨rfl, id⟩
  · exact ⟨rfl, id⟩
  · exact ⟨rfl, id⟩
  · exact ⟨rfl, fun _ => rfl⟩

/-- A presented command that decodes is run, its edge being over. -/
theorem step_ofWord {s : State} {w : CmdWord s.cfg} {rest : List (Edge s.cfg)} {i : Instr}
    (he : s.edges = Edge.ofWord w :: rest) (hi : decode s.cfg w = .ok i) :
    step s = exec i s.popEdge := by
  unfold step
  rw [he]
  simp only [Edge.rst_ofWord, Edge.cmdValid_ofWord, Edge.word_ofWord]
  simp [hi]

end Sys2Proof.Machine
end

