-- ==== Sys2Proof/Laws/Safety.lean ====
section
/-! SUPPORT. The small lemmas of what waits at the coming edges. -/

namespace Sys2Proof.Machine

/-- An edge made from a command presents a `SETPOS` exactly when its opcode is that of `SETPOS`. -/
@[simp] theorem presentsSetpos_ofInstr (c : Config) (i : Instr) :
    (Edge.ofInstr c i).presentsSetpos = (opcodeOf i == 0b010) := by
  simp [Edge.presentsSetpos, Edge.ofInstr, Edge.ofWord, encode]

/-- Where no `SETPOS` waits, the next edge presents none. -/
theorem NoSetposAhead.next {s : State} (h : NoSetposAhead s) : NoSetposNext s :=
  fun e he => h e (List.mem_of_mem_head? he)

/-- Where no `SETPOS` waits, none waits when the next edge is over. -/
theorem NoSetposAhead.popEdge {s : State} (h : NoSetposAhead s) : NoSetposAhead s.popEdge :=
  fun e he => h e (List.mem_of_mem_tail he)

end Sys2Proof.Machine
end

