-- ==== Sys2Proof/Tests/Slice0.lean ====
section
/-! SUPPORT. Small tests, their expected results taken from the spec (95_test_vectors.md and the rules'
worked examples), and one witness for the hypotheses of each statement. -/

namespace Sys2Proof.Tests

open Sys2Proof.Machine

/-! ### Helpers -/

/-- 16-bit counters, full-step, with a bound and a policy. -/
def bounded16 (maximum : Nat) (saturate : Bool) (h : (maximum : Int) ≤ 2 ^ 15 - 1) : Config :=
  ⟨false, maximum, saturate, 16, 16, by decide, by decide, h⟩

/-- Full-step, `MAX` = 5, saturate. -/
def sat5 : Config := bounded16 5 true (by decide)
/-- Full-step, `MAX` = 5, wrap. -/
def wrap5 : Config := bounded16 5 false (by decide)
/-- Full-step, `MAX` = `POS_MAX` = 32767, saturate and wrap. -/
def satTop : Config := bounded16 32767 true (by decide)
/-- Full-step, `MAX` = `POS_MAX` = 32767, wrap. -/
def wrapTop : Config := bounded16 32767 false (by decide)
/-- Half-step, `MAX` = 3, wrap (program P3). -/
def half3 : Config := ⟨true, 3, false, 16, 16, by decide, by decide, by decide⟩
/-- `POS_W` = 8, `TURNS_W` = 16. -/
def narrow : Config := ⟨false, 0, true, 8, 16, by decide, by decide, by decide⟩

/-- A block after reset with chosen registers and edges to come. -/
def block (c : Config) (row : Fin c.nrows) (d : Dir) (pos trn : Int) (es : List (Edge c)) : State where
  cfg := c
  regsDefined := true
  state := row
  lastDir := d
  position := BitVec.ofInt c.posW pos
  turns := BitVec.ofInt c.turnsW trn
  edges := es

/-- The next state of an outcome, if it is one. -/
def nextOf : Result → Option State
  | .next t => some t
  | .fault _ => none
  | .refused _ => none

/-- The fault of an outcome, if it is one. -/
def faultOf : Result → Option Fault
  | .next _ => none
  | .fault f => some f
  | .refused _ => none

/-- The refusal of an outcome, if it is one. -/
def refusalOf : Result → Option Refusal
  | .next _ => none
  | .fault _ => none
  | .refused r => some r

/-- Row, last direction, position, turns: what the spec's traces list. -/
def view (r : Result) : Option (Nat × Dir × Int × Int) :=
  (nextOf r).map fun t => (t.row, t.lastDir, t.pos, t.trn)

/-- The start state of 95_test_vectors.md section 3.5, with an edge to come. -/
def start35 (es : List (Edge Config.reference)) : State :=
  block Config.reference ⟨0, by decide⟩ .cw 7 2 es

/-- `start35` with a command word presented. -/
def present (w : BitVec 19) : State := start35 [Edge.ofWord w]

/-! ### Decoding: words written out from 30_encoding.md R61 and 95_test_vectors.md section 3.6 -/

theorem test_decode_nop : decode Config.reference 0x091A0#19 = .ok .nop := rfl
theorem test_decode_step : decode Config.reference 0x7FFF1#19 = .ok (.step 0b10) := rfl
theorem test_decode_setpos : decode Config.reference 0x7FFEA#19 = .ok (.setpos (-3)) := rfl
theorem test_decode_setturns : decode Config.reference 0x40003#19 = .ok (.setturns (-32768)) := rfl
theorem test_decode_init : decode Config.reference 0x7FFFC#19 = .ok .init := rfl
theorem test_decode_reserved : decode Config.reference 0x00015#19 = .error (.reservedOp 0b101) := rfl
theorem test_decode_table_word : decodeTableWord 8 0x1 = some (.step 0b00) := rfl
theorem test_decode_narrow_setpos :
    decode narrow ((0x0180#16 ++ 0b010#3 : BitVec 19)) = .ok (.setpos (-128)) := rfl
theorem test_decode_narrow_setturns :
    decode narrow ((0x0180#16 ++ 0b011#3 : BitVec 19)) = .ok (.setturns 384) := rfl

theorem test_encode_words :
    [Instr.nop, .step 3, .setpos 32767, .setpos (-1), .setturns (-1), .setturns (-32768), .init].map
      (encode Config.reference) = [0x00000, 0x00019, 0x3FFFA, 0x7FFFA, 0x7FFFB, 0x40003, 0x00004] := by
  decide

/-! ### Well-formedness: one ill-formed term for each check -/

theorem test_illformed_setpos_high : (Instr.setpos 32768).wf Config.reference = false := by decide
theorem test_illformed_setpos_low : (Instr.setpos (-32769)).wf Config.reference = false := by decide
theorem test_illformed_setturns_high : (Instr.setturns 32768).wf Config.reference = false := by decide
theorem test_illformed_setturns_low : (Instr.setturns (-32769)).wf Config.reference = false := by decide
theorem test_illformed_posW : (⟨false, 0, true, 1, 16⟩ : RawConfig).wf = false := by decide
theorem test_illformed_turnsW : (⟨false, 0, true, 16, 1⟩ : RawConfig).wf = false := by decide
theorem test_illformed_negative : (⟨false, -1, true, 8, 8⟩ : RawConfig).wf = false := by decide
theorem test_illformed_bound : (⟨false, 128, true, 8, 8⟩ : RawConfig).wf = false := by decide
theorem test_wellformed_bound : (⟨false, 127, true, 8, 8⟩ : RawConfig).wf = true := by decide
theorem test_refused_config :
    elaborate ⟨false, 128, true, 8, 8⟩ = .error (.badConfig ⟨false, 128, true, 8, 8⟩) := rfl

/-! ### One edge each: 95_test_vectors.md section 3.5 -/

theorem test_V_X1_setpos : view (step (present 0x7FFEA)) = some (0, .cw, -3, 2) := by decide
theorem test_V_X3_setpos_smallest : view (step (present 0x40002)) = some (0, .cw, -32768, 2) := by decide
theorem test_V_X5_setturns : view (step (present 0x7FFFB)) = some (0, .cw, 7, -1) := by decide
theorem test_V_X6_setturns_smallest : view (step (present 0x40003)) = some (0, .cw, 7, -32768) := by decide
theorem test_V_X8_init : view (step (present 0x7FFFC)) = some (0, .none, 0, 0) := by decide
theorem test_V_X10_nop : view (step (present 0x091A0)) = some (0, .cw, 7, 2) := by decide
theorem test_V_X11_idle :
    view (step (start35 [⟨false, false, 0b001, 2⟩])) = some (0, .cw, 7, 2) := by decide
theorem test_V_X12_reset :
    view (step (start35 [⟨true, true, 0b001, 2⟩])) = some (0, .none, 0, 0) := by decide
theorem test_V_X13_reserved : refusalOf (step (present 0x00005)) = some (.reservedOp 0b101) := by decide
theorem test_fetch_word : view (step (State.reset.withFetchWord 8 0x9)) = some (1, .none, 0, 0) := by decide

/-- The worked example of 40_decoder_step.md R70. -/
theorem test_step_worked_example :
    view (exec (.step 0) (block Config.reference ⟨3, by decide⟩ .none 4 0 [])) = some (0, .cw, 5, 0) := by
  decide

/-- Program P3, row 3: a half-step flag at the 11 detent and a forward wrap. -/
theorem test_step_half_step_wrap :
    view (exec (.step 3) (block half3 ⟨1, by decide⟩ .none 3 0 [])) = some (3, .cw, 0, 1) := by decide

/-- The worked example of 42_control.md R95. -/
theorem test_init_worked_example :
    view (exec .init (block Config.reference ⟨5, by decide⟩ .ccw (-12) 3 [])) = some (0, .none, 0, 0) := by
  decide

theorem test_before_reset_faults :
    faultOf (exec (.setpos 1) (start35 []).powerOn) = some .beforeReset := by decide

/-! ### The counter: vectors of 95_test_vectors.md section 3.4 -/

/-- A counter update's pair, or `none` where it faults. -/
def counted (c : Config) (d : Dir) (pos trn : Int) : Option (Int × Int) :=
  match counterUpdate c d pos trn with
  | .ok out => some out
  | .error _ => none

theorem test_counter_unbounded :
    [counted Config.reference .cw 0 0, counted Config.reference .ccw 0 0, counted Config.reference .none 5 3,
      counted Config.reference .cw 32766 0, counted Config.reference .cw 32767 0,
      counted Config.reference .ccw (-32768) 0, counted Config.reference .none 32767 32767]
    = [some (1, 0), some (-1, 0), some (5, 3), some (32767, 0), none, none, some (32767, 32767)] := by
  decide

theorem test_counter_saturate :
    [counted sat5 .cw 4 0, counted sat5 .cw 5 0, counted sat5 .ccw (-5) 0, counted sat5 .cw 5 32767,
      counted sat5 .cw 9 0, counted sat5 .ccw 9 0, counted sat5 .ccw (-9) 0, counted satTop .cw 32767 0,
      counted satTop .ccw (-32768) 0, counted satTop .cw (-32768) 0, counted sat5 .cw 32767 7]
    = [some (5, 0), some (5, 0), some (-5, 0), some (5, 32767), some (5, 0), some (8, 0), some (-5, 0),
      some (32767, 0), some (-32767, 0), some (-32767, 0), some (5, 7)] := by
  decide

theorem test_counter_wrap :
    [counted wrap5 .cw 5 0, counted wrap5 .ccw (-5) 0, counted wrap5 .cw 4 0, counted wrap5 .ccw 0 1,
      counted wrap5 .cw 0 (-1), counted wrap5 .cw 5 32767, counted wrap5 .ccw (-5) (-32768),
      counted wrap5 .cw 9 0, counted wrap5 .ccw (-9) 0, counted wrap5 .cw (-9) 0,
      counted wrapTop .cw 32767 0, counted wrapTop .ccw (-32768) 0, counted wrap5 .cw 32767 7]
    = [some (0, 1), some (0, -1), some (5, 0), some (-1, 1), some (1, -1), none, none, some (0, 1),
      some (0, -1), some (-8, 0), some (0, 1), some (0, -1), some (0, 8)] := by
  decide

/-! ### The ROM: 95_test_vectors.md section 3.1 -/

theorem test_rom_addresses :
    [romRead false 12, romRead false 24, romRead false 21, romRead true 21, romRead false 3, romRead true 3,
      romRead false 27, romRead true 23, romRead false 28, romRead true 24]
    = [some 0x10, some 0x20, some 0x06, some 0x05, some 0x00, some 0x03, some 0x05, some 0x03, none, none] := by
  decide

/-! ### The assembler: 30_encoding.md R61, R62 -/

theorem test_parse_step : parseLine "  STEP 0b11 ; pins high".toList = .ok (some (.step 3)) := by decide
theorem test_parse_setpos : parseLine "SETPOS -3".toList = .ok (some (.setpos (-3))) := by decide
theorem test_parse_hex : parseLine "SETTURNS 0x7fFF".toList = .ok (some (.setturns 32767)) := by decide
theorem test_parse_comment : parseLine " ; nothing".toList = .ok none := by decide
theorem test_parse_case : parseLine "nop".toList = .error .badLine := by decide
theorem test_assemble_range :
    assemble Config.reference [.step 4] = .error (.operandRange 4) := by decide
theorem test_assemble_rev :
    assemble Config.reference [.rev 1, .idle]
      = .ok [.ofWord 0x00011, .ofWord 0x00019, .ofWord 0x00009, .ofWord 0x00001, .idle _] := by decide

/-! ### Witnesses: the hypotheses of each statement can be met -/

theorem witness_ResetEdgeWinsOverAnyCommand :
    (start35 [⟨true, true, 0b001, 2⟩]).edges = ⟨true, true, 0b001, 2⟩ :: [] := rfl

theorem witness_IdleEdgeChangesNoRegister :
    (start35 [⟨false, false, 0b001, 2⟩]).edges = ⟨false, false, 0b001, 2⟩ :: [] := rfl

theorem witness_StepRunsTheDecodedCommand :
    (start35 [⟨false, true, 0b001, 0xFFFE⟩]).edges = ⟨false, true, 0b001, 0xFFFE⟩ :: []
      ∧ decode Config.reference (0xFFFE#16 ++ 0b001#3) = .ok (.step 2)
      ∧ (start35 []).edges = [] := ⟨rfl, rfl, rfl⟩

theorem witness_FetchWordIsTheNextCommand :
    decode State.reset.cfg (BitVec.ofNat _ (0xFF % 2 ^ 3)) = .error (.reservedOp 7)
      ∧ decode State.reset.cfg (BitVec.ofNat _ (0x19 % 2 ^ 8)) = .ok (.step 3) := ⟨rfl, rfl⟩

theorem witness_ReservedOpcodesAreRefused :
    (start35 [⟨false, true, 0b101, 0⟩]).edges = ⟨false, true, 0b101, 0⟩ :: []
      ∧ refusalOf (step (start35 [⟨false, true, 0b110, 0⟩])) = some (.reservedOp 0b110)
      ∧ refusalOf (step (start35 [⟨false, true, 0b111, 0⟩])) = some (.reservedOp 0b111)
      ∧ refusalOf (step (start35 [⟨false, true, 0b100, 0⟩])) = none := by decide

theorem witness_BeforeResetOnlyInitAndNopRun : (start35 []).powerOn.regsDefined = false := rfl

theorem witness_SetposLoadsPositionOnly :
    (start35 []).regsDefined = true ∧ (start35 []).cfg.posMin = -32768 ∧ (start35 []).cfg.posMax = 32767 := by
  decide

theorem witness_SetturnsLoadsTurnsOnly :
    (start35 []).regsDefined = true ∧ (start35 []).cfg.turnsMin = -32768
      ∧ (start35 []).cfg.turnsMax = 32767 := by decide

/-- A block in the row from which reading 00 makes `CW` (row 3) or `CCW` (row 6). -/
def atFlag (c : Config) (h : c.halfStep = false) (row : Nat) (hr : row < 7) (pos trn : Int) : State :=
  block c ⟨row, by simp [Config.nrows, nrowsOf, h, hr]⟩ .none pos trn []

/-- Registers defined, and reading 00 finds the flag `d` in the cell. -/
def readyFor (d : Dir) (s : State) : Bool :=
  s.regsDefined && decide (cellFlag s.cfg.halfStep s.state 0b00 = d)

/-- With `position` 9 beyond the bound 5, as `SETPOS` may leave it (41_position_counter.md R83). -/
theorem witness_StepWithoutFlagKeepsTheCounters :
    readyFor .none (block sat5 ⟨0, by decide⟩ .cw 9 2 []) = true
      ∧ view (exec (.step 0) (block sat5 ⟨0, by decide⟩ .cw 9 2 [])) = some (0, .none, 9, 2) := by decide

theorem witness_StepWithCwCountsForward_unbounded :
    readyFor .cw (atFlag Config.reference rfl 3 (by decide) 32766 0) = true
      ∧ Config.reference.maximum = 0
      ∧ (atFlag Config.reference rfl 3 (by decide) 32766 0).pos < Config.reference.posMax := by decide

theorem witness_StepWithCwCountsForward_within :
    readyFor .cw (atFlag sat5 rfl 3 (by decide) 4 0) = true ∧ sat5.maximum ≠ 0
      ∧ (atFlag sat5 rfl 3 (by decide) 4 0).pos + 1 ≤ sat5.maximum := by decide

theorem witness_StepWithCwCountsForward_saturate :
    readyFor .cw (atFlag sat5 rfl 3 (by decide) 5 0) = true ∧ sat5.maximum ≠ 0
      ∧ (sat5.maximum : Int) < (atFlag sat5 rfl 3 (by decide) 5 0).pos + 1 ∧ sat5.saturate = true := by
  decide

theorem witness_StepWithCwCountsForward_wrap :
    readyFor .cw (atFlag wrap5 rfl 3 (by decide) 5 32766) = true ∧ wrap5.maximum ≠ 0
      ∧ (wrap5.maximum : Int) < (atFlag wrap5 rfl 3 (by decide) 5 32766).pos + 1
      ∧ wrap5.saturate = false
      ∧ (atFlag wrap5 rfl 3 (by decide) 5 32766).trn < wrap5.turnsMax := by decide

theorem witness_StepWithCcwCountsBackward_unbounded :
    readyFor .ccw (atFlag Config.reference rfl 6 (by decide) (-32767) 0) = true
      ∧ Config.reference.maximum = 0
      ∧ Config.reference.posMin < (atFlag Config.reference rfl 6 (by decide) (-32767) 0).pos := by decide

theorem witness_StepWithCcwCountsBackward_within :
    readyFor .ccw (atFlag sat5 rfl 6 (by decide) (-4) 0) = true ∧ sat5.maximum ≠ 0
      ∧ -(sat5.maximum : Int) ≤ (atFlag sat5 rfl 6 (by decide) (-4) 0).pos - 1 := by decide

theorem witness_StepWithCcwCountsBackward_saturate :
    readyFor .ccw (atFlag sat5 rfl 6 (by decide) (-5) 0) = true ∧ sat5.maximum ≠ 0
      ∧ (atFlag sat5 rfl 6 (by decide) (-5) 0).pos - 1 < -(sat5.maximum : Int)
      ∧ sat5.saturate = true := by decide

theorem witness_StepWithCcwCountsBackward_wrap :
    readyFor .ccw (atFlag wrap5 rfl 6 (by decide) (-5) (-32767)) = true ∧ wrap5.maximum ≠ 0
      ∧ (atFlag wrap5 rfl 6 (by decide) (-5) (-32767)).pos - 1 < -(wrap5.maximum : Int)
      ∧ wrap5.saturate = false
      ∧ wrap5.turnsMin < (atFlag wrap5 rfl 6 (by decide) (-5) (-32767)).trn := by decide

theorem witness_StepFaultsExactlyOutOfRange :
    (atFlag narrow rfl 3 (by decide) 127 0).regsDefined = true
      ∧ faultOf (exec (.step 0) (atFlag narrow rfl 3 (by decide) 127 0)) = some (.posRange .cw 127)
      ∧ faultOf (exec (.step 0) (atFlag Config.reference rfl 6 (by decide) (-32768) 0))
        = some (.posRange .ccw (-32768))
      ∧ faultOf (exec (.step 0) (atFlag wrap5 rfl 3 (by decide) 5 32767))
        = some (.turnsRange .cw 32767)
      ∧ faultOf (exec (.step 0) (atFlag wrap5 rfl 6 (by decide) (-5) (-32768)))
        = some (.turnsRange .ccw (-32768)) := by decide

theorem witness_OnlyStepFaultsAfterReset : (start35 []).regsDefined = true := rfl

theorem witness_TablesObeyTheirLaws : (startRow Config.reference).val = 0 ∧ (startRow half3).val = 0 := by
  decide

theorem witness_PollingTheSameReadingCountsOnce :
    (start35 []).regsDefined = true ∧ ∃ t, exec (.step 2) (start35 []) = .next t := ⟨rfl, _, rfl⟩

theorem witness_DetentReadingsResynchronise :
    (∃ t, exec (.step 0) (block half3 ⟨4, by decide⟩ .none 3 0 []) = .next t ∧ t.lastDir ≠ .none)
      ∧ ∃ t, exec (.step 3) (block half3 ⟨1, by decide⟩ .none 3 0 []) = .next t ∧ t.lastDir ≠ .none :=
  ⟨⟨_, rfl, by decide⟩, _, rfl, by decide⟩

theorem witness_WindingInvariantAlongEveryWalk :
    (block half3 ⟨3, by decide⟩ .none 3 0 []).regsDefined = true
      ∧ readingAt 2 = homeReading half3.halfStep (block half3 ⟨3, by decide⟩ .none 3 0 []).row
      ∧ ∃ t, runN 2 ((block half3 ⟨3, by decide⟩ .none 3 0 []).reading (walkReadings 2 [.fwd, .fwd]))
        = .next t := ⟨rfl, by decide, _, rfl⟩

theorem witness_UnboundedPositionFollowsThePhase :
    Config.reference.maximum = 0
      ∧ (([.fwd, .stay, .back] : List Move).length : Int) ≤ Config.reference.posMax := by decide

theorem witness_LapArithmeticAlongEveryRun :
    (atFlag wrap5 rfl 3 (by decide) 5 0).regsDefined = true
      ∧ PositionBounded (atFlag wrap5 rfl 3 (by decide) 5 0) ∧ wrap5.maximum ≠ 0 ∧ wrap5.saturate = false
      ∧ ∃ t, runN 1 ((atFlag wrap5 rfl 3 (by decide) 5 0).reading [0b00]) = .next t :=
  ⟨rfl, by unfold PositionBounded; decide, by decide, rfl, _, rfl⟩

theorem witness_ForwardCyclesCountLaps :
    wrap5.maximum ≠ 0 ∧ wrap5.saturate = false
      ∧ ((flagsPerCycle wrap5.halfStep * 6 / (wrap5.maximum + 1) : Nat) : Int) ≤ wrap5.turnsMax := by decide

theorem witness_ReverseCyclesCountLaps :
    half3.maximum ≠ 0 ∧ half3.saturate = false
      ∧ half3.turnsMin ≤ -((flagsPerCycle half3.halfStep * 6 / (half3.maximum + 1) : Nat) : Int) := by decide

theorem witness_CyclesSaturateAtTheBound : sat5.maximum ≠ 0 ∧ sat5.saturate = true := by decide

/-- A block at its bound whose next edge is a `STEP` that wraps, with later edges of choice. -/
def boundThen (later : List Instr) : State :=
  (block wrap5 ⟨3, by decide⟩ .none 5 0 []).presenting (.step 0 :: later)

theorem witness_EveryStepKeepsTheBound_next :
    NoSetposNext (boundThen [.setpos 9]) ∧ BoundHolds (boundThen [.setpos 9])
      ∧ wrap5.maximum ≠ 0 ∧ ∃ t, step (boundThen [.setpos 9]) = .next t :=
  ⟨by unfold NoSetposNext; decide, fun _ => by unfold PositionBounded; decide, by decide, _, rfl⟩

theorem witness_EveryStepKeepsTheBound :
    BoundKept (boundThen [.setturns 9]) ∧ wrap5.maximum ≠ 0
      ∧ ∃ t, step (boundThen [.setturns 9]) = .next t :=
  ⟨⟨by unfold NoSetposAhead; decide, fun _ => by unfold PositionBounded; decide⟩, by decide, _, rfl⟩

theorem witness_BoundHoldsAtReset :
    NoSetposAhead (State.resetOf wrap5 [Edge.ofInstr wrap5 (.step 1), Edge.reset wrap5, Edge.idle wrap5]) := by
  unfold NoSetposAhead; decide

theorem witness_EveryStepKeepsFlagsInIdleRows :
    FlagOnlyInIdleRow (block half3 ⟨3, by decide⟩ .cw 0 0 [Edge.ofInstr half3 (.step 1)])
      ∧ ∃ t, step (block half3 ⟨3, by decide⟩ .cw 0 0 [Edge.ofInstr half3 (.step 1)]) = .next t :=
  ⟨fun _ => .inr ⟨rfl, rfl⟩, _, rfl⟩

theorem witness_StepMovesTurnsOnlyAtAWrap :
    ∃ t, exec (.step 0) (atFlag wrap5 rfl 3 (by decide) 5 0) = .next t
      ∧ t.trn ≠ (atFlag wrap5 rfl 3 (by decide) 5 0).trn := ⟨_, rfl, by decide⟩

theorem witness_NoStepChangesConfigurationOrRom :
    ∃ t, step (present 0x7FFEA) = .next t := ⟨_, rfl⟩

theorem witness_LastDirDecidesNothing :
    (block wrap5 ⟨0, by decide⟩ .cw 1 1 []).forgetDir = (block wrap5 ⟨0, by decide⟩ .none 1 1 []).forgetDir
      ∧ block wrap5 ⟨0, by decide⟩ .cw 1 1 [] ≠ block wrap5 ⟨0, by decide⟩ .none 1 1 [] := by decide

theorem witness_CountersDoNotSteerTheFsm :
    ∃ t u, exec (.step 1) (start35 []) = .next t
      ∧ exec (.step 1) { start35 [] with position := 9, turns := 1 } = .next u := ⟨_, _, rfl, rfl⟩

theorem witness_RunIsTheFoldOfItsCommands :
    ∀ i ∈ [Instr.setpos (-32768), .step 1, .setturns 32767, .init, .nop],
      i.wf (start35 []).cfg = true := by decide

theorem witness_BlocksDoNotAffectEachOther :
    [start35 [], State.reset][1]? = some State.reset
      ∧ ∃ t, step State.reset = .next t := ⟨rfl, _, rfl⟩

theorem witness_OutputsShowTheRegisters :
    (start35 []).outputs = some ⟨7, 2, 0b01⟩ := by decide

theorem witness_DecodeOfEncodeIsTheCommand :
    (Instr.setpos (-32768)).wf Config.reference = true ∧ (Instr.setturns 32767).wf narrow = true := by
  decide

theorem witness_IgnoredArgumentBitsHaveNoEffect :
    sameUsedBits Config.reference 0x7FFF1#19 0x00011#19 ∧ sameUsedBits Config.reference 0x7FFFC#19 0x4#19
      ∧ sameUsedBits narrow (0x0180#16 ++ 0b010#3 : BitVec 19) (0xFF80#16 ++ 0b010#3 : BitVec 19) := by
  unfold sameUsedBits; decide

theorem witness_DecodedCommandsAreWellFormed :
    decode Config.reference 0x40002#19 = .ok (.setpos (-32768)) := rfl

theorem witness_ElaborationRefusesIllFormedConfigurations :
    (⟨true, 127, false, 8, 2⟩ : RawConfig).wf = true ∧ (⟨true, 128, false, 8, 2⟩ : RawConfig).wf = false := by
  decide

end Sys2Proof.Tests
end

section
/-! PROOFS. The transition-table ROM (20_memory.md R35 to R38) and the run of a command sequence as a
fold (R47). -/

namespace Sys2Proof.Machine

/-! ### The encoder and the decoder -/

@[simp] theorem pinsOperand_pinsArg (c : Config) (p : Pins) : pinsOperand (pinsArg c p) = p :=
  extract_setWidth (c.posW_ge.trans (le_max_left _ _)) p

theorem posOperand_posArg (c : Config) {v : Int} (h : c.posMin ≤ v) (h' : v ≤ c.posMax) :
    posOperand c (posArg c v) = v := by
  unfold posOperand sext posArg
  rw [extract_setWidth (le_max_left _ _), toInt_ofInt_posW c h h']

theorem turnsOperand_turnsArg (c : Config) {v : Int} (h : c.turnsMin ≤ v) (h' : v ≤ c.turnsMax) :
    turnsOperand c (turnsArg c v) = v := by
  unfold turnsOperand sext turnsArg
  rw [extract_setWidth (le_max_right _ _), toInt_ofInt_turnsW c h h']

/-- The decoder is the encoder's left inverse on well-formed commands (30_encoding.md R56, R57, R61):
the opcode chooses the command, the operand comes back from the bits it uses. -/
theorem decode_encode {c : Config} {i : Instr} (h : i.wf c = true) : decode c (encode c i) = .ok i := by
  cases i with
  | nop => simp [decode, encode, opcodeOf]
  | step p => simp [decode, encode, opcodeOf, argOf]
  | setpos v =>
    simp only [Instr.wf, Bool.and_eq_true, decide_eq_true_eq] at h
    obtain ⟨hmin, hmax⟩ := h
    simp [decode, encode, opcodeOf, argOf, posOperand_posArg c hmin hmax]
  | setturns v =>
    simp only [Instr.wf, Bool.and_eq_true, decide_eq_true_eq] at h
    obtain ⟨hmin, hmax⟩ := h
    simp [decode, encode, opcodeOf, argOf, turnsOperand_turnsArg c hmin hmax]
  | init => simp [decode, encode, opcodeOf]

/-! ### Commands do not look at what waits -/

/-- An outcome whose next state has a command sequence to be presented. -/
def presentingOutcome (is : List Instr) : Result → Result
  | .next t => .next (t.presenting is)
  | .fault f => .fault f
  | .refused r => .refused r

@[simp] theorem popEdge_presenting_cons (s : State) (i : Instr) (is : List Instr) :
    (s.presenting (i :: is)).popEdge = s.presenting is := rfl

/-- A command guarded by `whenDefined` does not look at what waits when its own effect does not. -/
theorem whenDefined_presenting {s : State} {is : List Instr} {k k' : Result}
    (h : k' = presentingOutcome is k) :
    whenDefined (s.presenting is) k' = presentingOutcome is (whenDefined s k) := by
  subst h
  unfold whenDefined
  cases hd : s.regsDefined <;> simp [State.presenting, presentingOutcome, hd]

/-- The counters' update and the writes of a decode step do not look at what waits. -/
theorem stepWith_presenting (s : State) (is : List Instr) (r : Fin s.cfg.nrows) (d : Dir) :
    stepWith (s.presenting is) r d = presentingOutcome is (stepWith s r d) := by
  have h : counterUpdate (s.presenting is).cfg d (s.presenting is).pos (s.presenting is).trn
      = counterUpdate s.cfg d s.pos s.trn := rfl
  unfold stepWith
  rw [h]
  cases counterUpdate s.cfg d s.pos s.trn <;> rfl

/-- The effect of a command is the same whatever is presented after it. -/
theorem exec_presenting (i : Instr) (s : State) (is : List Instr) :
    exec i (s.presenting is) = presentingOutcome is (exec i s) := by
  cases i with
  | nop => rfl
  | step p => exact whenDefined_presenting (stepWith_presenting s is _ _)
  | setpos v => exact whenDefined_presenting rfl
  | setturns v => exact whenDefined_presenting rfl
  | init => rfl

/-- The edge of a well-formed command has the command's own effect. -/
theorem step_presenting_cons {s : State} {i : Instr} (is : List Instr) (h : i.wf s.cfg = true) :
    step (s.presenting (i :: is)) = presentingOutcome is (exec i s) := by
  rw [step_ofWord (s := s.presenting (i :: is)) rfl (decode_encode h), popEdge_presenting_cons,
    exec_presenting]

/-! ### The ROM's cells -/

/-- The flat image of the table that `HALF_STEP` selects (20_memory.md R35, R37). -/
def romImage (half : Bool) : List Byte := if half then halfStepImage else fullStepImage

theorem romRead_eq_getElem? (half : Bool) (a : Nat) : romRead half a = (romImage half)[a]? :=
  romRead_eq half a

/-- An image has four bytes a row (20_memory.md R31). -/
@[simp] theorem length_romImage (half : Bool) : (romImage half).length = 4 * nrowsOf half := by
  cases half <;> rfl

theorem romRead_isSome_iff (half : Bool) (a : Nat) :
    (romRead half a).isSome = true ↔ a < 4 * nrowsOf half := by
  simp [romRead_eq_getElem?]

/-- Reading all the addresses in order gives the image. -/
theorem map_romRead_range (half : Bool) :
    (List.range (4 * nrowsOf half)).map (romRead half) = (romImage half).map some := by
  apply List.ext_getElem <;> simp +contextual [romRead_eq_getElem?]

/-- Every cell's high nibble is a flag's (20_memory.md R38 (c)). -/
theorem cellHigh_lookup : ∀ (half : Bool) (s : Fin (nrowsOf half)) (p : Pins),
    (cellHigh (lookup half s p)).toNat = 0 ∨ (cellHigh (lookup half s p)).toNat = 1
      ∨ (cellHigh (lookup half s p)).toNat = 2 := by decide

/-- The cells that complete a cycle, and only they, carry a flag (20_memory.md R35, R37). -/
theorem cellFlag_ne_none_iff : ∀ (half : Bool) (s : Fin (nrowsOf half)) (p : Pins),
    cellFlag half s p ≠ .none ↔
      (half = false ∧ (s.val = 3 ∨ s.val = 6) ∧ p = 0b00)
      ∨ (half = true ∧ ((s.val = 1 ∨ s.val = 2) ∧ p = 0b11 ∨ (s.val = 4 ∨ s.val = 5) ∧ p = 0b00)) := by
  decide

/-- A row stays itself, with `NONE`, at its home reading (20_memory.md R38 (e)). -/
theorem cell_homeReading : ∀ (half : Bool) (s : Fin (nrowsOf half)),
    nextRow half s (homeReading half s) = s ∧ cellFlag half s (homeReading half s) = .none := by decide

/-- Readings that lead from the start row to a row: the row's own sequence as far as the row, forward
or reverse; in half-step mode `MID` is one double move away (20_memory.md R39). -/
def pathTo (half : Bool) (row : Nat) : List Pins :=
  if half then
    match row with
    | 0 => []
    | 1 => [0b01]
    | 2 => [0b10]
    | 3 => [0b11]
    | 4 => [0b11, 0b10]
    | _ => [0b11, 0b01]
  else
    match row with
    | 0 => []
    | 1 => [0b01]
    | 2 => [0b01, 0b11]
    | 3 => [0b01, 0b11, 0b10]
    | 4 => [0b10]
    | 5 => [0b10, 0b11]
    | _ => [0b10, 0b11, 0b01]

/-- Every row is reached from the start row (20_memory.md R38 (d), (f)). -/
theorem foldl_nextRow_pathTo : ∀ (half : Bool) (z s : Fin (nrowsOf half)), z.val = 0 →
    (pathTo half s).foldl (nextRow half) z = s := by decide

end Sys2Proof.Machine

section

open Sys2Proof Sys2Proof.Machine

/-- Settles O38, by induction on the commands, from every state: the first edge has its command's own
effect, and that effect leaves the configuration, so also the words of the rest, as they were. -/
theorem runIsTheFoldOfItsCommands : Obligations.RunIsTheFoldOfItsCommands := by
  intro s is hwf
  induction is generalizing s with
  | nil => rfl
  | cons i is ih =>
    obtain ⟨hi, his⟩ := List.forall_mem_cons.mp hwf
    simp only [List.length_cons, runN, foldExec, step_presenting_cons is hi, exec_presenting]
    cases he : exec i s with
    | next t =>
      obtain ⟨hcfg, -⟩ := exec_next_frame he
      exact ih t (by rwa [hcfg])
    | fault f => rfl
    | refused r => rfl

/-- Settles O18: the bytes are the image's, and the 28 cells are looked up. -/
theorem fullStepTransitionsAreTheSpecs : Obligations.FullStepTransitionsAreTheSpecs :=
  ⟨by decide, map_romRead_range false⟩

/-- Settles O19: the bytes are the image's, and the 24 cells are looked up. -/
theorem halfStepTransitionsAreTheSpecs : Obligations.HalfStepTransitionsAreTheSpecs :=
  ⟨by decide, map_romRead_range true⟩

/-- Settles O20, law by law. -/
theorem tablesObeyTheirLaws : Obligations.TablesObeyTheirLaws := by
  refine ⟨fun _ => rfl, fun half => ⟨romRead_isSome_iff half, fun s p => ⟨cellNext_closed half s p,
    cellHigh_lookup half s p, cellFlag_ne_none_iff half s p, ?_⟩, fun z s hz => ?_⟩⟩
  · rintro rfl
    exact cell_homeReading half s
  · exact ⟨pathTo half s, foldl_nextRow_pathTo half z s hz⟩

end
end

section
/-! PROOFS. An edge that presents no command (30_encoding.md R59). -/

namespace Sys2Proof.Machine

/-- When one edge is known to come first, ending it leaves the rest waiting. -/
theorem popEdge_of_edges_cons {s : State} {e : Edge s.cfg} {rest : List (Edge s.cfg)}
    (he : s.edges = e :: rest) : s.popEdge = { s with edges := rest } := by
  rw [State.popEdge, he, List.tail_cons]

/-- An idle edge only passes: `step` takes neither the reset branch nor the decoder's. -/
theorem step_of_idle_edge {s : State} {e : Edge s.cfg} {rest : List (Edge s.cfg)}
    (he : s.edges = e :: rest) (hrst : e.rst = false) (hvalid : e.cmdValid = false) :
    step s = .next s.popEdge := by
  unfold step
  rw [he]
  simp [hrst, hvalid]

end Sys2Proof.Machine

section

open Sys2Proof Sys2Proof.Machine

/-- Settles O3: neither `cmd_op` nor `cmd_arg` is looked at, the edge is over, and that is all. -/
theorem idleEdgeChangesNoRegister : Obligations.IdleEdgeChangesNoRegister := by
  intro s op arg rest he
  rw [step_of_idle_edge he rfl rfl, popEdge_of_edges_cons he]

end
end

section
/-! PROOFS. The lookup and the ROM's address (40_decoder_step.md R71). -/

namespace Sys2Proof.Machine

/-- A lookup is a read that succeeds: the cell of a row and a reading exists, and it is the byte used. -/
theorem romRead_romAddr (half : Bool) (s : Fin (nrowsOf half)) (p : Pins) :
    romRead half (romAddr s p) = some (lookup half s p) :=
  (Option.some_get (romRead_total half s p)).symm

end Sys2Proof.Machine

section

open Sys2Proof Sys2Proof.Machine

/-- Settles O17: `romAddr` is the address 4·`s` + `p`. -/
theorem lookupReadsTheCellOfRowAndReading : Obligations.LookupReadsTheCellOfRowAndReading := by
  intro half s p
  change romRead half (romAddr s p) = some (lookup half s p)
  exact romRead_romAddr half s p

end
end

section
/-! PROOFS. The position counter: `CounterUpdate` case by case, `SETPOS` and `SETTURNS`
(41_position_counter.md). -/

namespace Sys2Proof.Machine

/-! ### After reset a command has its effect -/

@[simp] theorem whenDefined_of_regsDefined {s : State} (hd : s.regsDefined = true) (k : Result) :
    whenDefined s k = k := if_pos hd

theorem exec_setpos_of_regsDefined {s : State} (hd : s.regsDefined = true) (v : Int) :
    exec (.setpos v) s = .next (s.writePosition v) := whenDefined_of_regsDefined hd _

theorem exec_setturns_of_regsDefined {s : State} (hd : s.regsDefined = true) (v : Int) :
    exec (.setturns v) s = .next (s.writeTurns v) := whenDefined_of_regsDefined hd _

/-! ### The counters after a flag, before the range test (41_position_counter.md R81, R82) -/

section countersAfterFlag
variable {c : Config} {pos : Int} (trn : Int)

theorem counterCw_of_within (h : c.maximum = 0 ∨ pos + 1 ≤ c.maximum) :
    counterCw c pos trn = (pos + 1, trn) := if_neg (by omega)

theorem counterCw_of_saturate (h0 : c.maximum ≠ 0) (h : c.maximum < pos + 1)
    (hs : c.saturate = true) : counterCw c pos trn = (↑c.maximum, trn) :=
  (if_pos ⟨h0, h⟩).trans (if_pos hs)

theorem counterCw_of_wrap (h0 : c.maximum ≠ 0) (h : c.maximum < pos + 1)
    (hs : c.saturate = false) : counterCw c pos trn = (0, trn + 1) :=
  (if_pos ⟨h0, h⟩).trans (if_neg (by simp [hs]))

theorem counterCcw_of_within (h : c.maximum = 0 ∨ -(c.maximum : Int) ≤ pos - 1) :
    counterCcw c pos trn = (pos - 1, trn) := if_neg (by omega)

theorem counterCcw_of_saturate (h0 : c.maximum ≠ 0) (h : pos - 1 < -(c.maximum : Int))
    (hs : c.saturate = true) : counterCcw c pos trn = (-↑c.maximum, trn) :=
  (if_pos ⟨h0, h⟩).trans (if_pos hs)

theorem counterCcw_of_wrap (h0 : c.maximum ≠ 0) (h : pos - 1 < -(c.maximum : Int))
    (hs : c.saturate = false) : counterCcw c pos trn = (0, trn - 1) :=
  (if_pos ⟨h0, h⟩).trans (if_neg (by simp [hs]))

end countersAfterFlag

/-! ### The update passes the range test (41_position_counter.md R84, R85) -/

section counterUpdate
variable {s : State}

/-- With `turns` kept, the range test asks about `position` only. -/
theorem rangeTest_keeping_turns {d : Dir} {v : Int} (h : s.cfg.posMin ≤ v) (h' : v ≤ s.cfg.posMax) :
    rangeTest s.cfg d s.pos s.trn (v, s.trn) = .ok (v, s.trn) :=
  have ⟨hmin, hmax⟩ := trn_range s
  rangeTest_of_range h h' hmin hmax

/-- With `position` back at 0, the range test asks about `turns` only. -/
theorem rangeTest_of_lap {d : Dir} {v : Int} (h : s.cfg.turnsMin ≤ v) (h' : v ≤ s.cfg.turnsMax) :
    rangeTest s.cfg d s.pos s.trn (0, v) = .ok (0, v) := by
  have hm := maximum_range s.cfg
  exact rangeTest_of_range (by dsimp only; omega) (by dsimp only; omega) h h'

theorem counterUpdate_cw_of_within
    (h : s.cfg.maximum = 0 ∧ s.pos < s.cfg.posMax ∨ s.cfg.maximum ≠ 0 ∧ s.pos + 1 ≤ s.cfg.maximum) :
    counterUpdate s.cfg .cw s.pos s.trn = .ok (s.pos + 1, s.trn) := by
  have hp := pos_range s
  have hm := maximum_range s.cfg
  rw [counterUpdate, counterCw_of_within _ (by omega)]
  exact rangeTest_keeping_turns (by omega) (by omega)

theorem counterUpdate_cw_of_saturate (h0 : s.cfg.maximum ≠ 0) (h : s.cfg.maximum < s.pos + 1)
    (hs : s.cfg.saturate = true) :
    counterUpdate s.cfg .cw s.pos s.trn = .ok (↑s.cfg.maximum, s.trn) := by
  have hm := maximum_range s.cfg
  rw [counterUpdate, counterCw_of_saturate _ h0 h hs]
  exact rangeTest_keeping_turns (by omega) (by omega)

theorem counterUpdate_cw_of_wrap (h0 : s.cfg.maximum ≠ 0) (h : s.cfg.maximum < s.pos + 1)
    (hs : s.cfg.saturate = false) (ht : s.trn < s.cfg.turnsMax) :
    counterUpdate s.cfg .cw s.pos s.trn = .ok (0, s.trn + 1) := by
  have htr := trn_range s
  rw [counterUpdate, counterCw_of_wrap _ h0 h hs]
  exact rangeTest_of_lap (by omega) (by omega)

theorem counterUpdate_ccw_of_within
    (h : s.cfg.maximum = 0 ∧ s.cfg.posMin < s.pos
      ∨ s.cfg.maximum ≠ 0 ∧ -(s.cfg.maximum : Int) ≤ s.pos - 1) :
    counterUpdate s.cfg .ccw s.pos s.trn = .ok (s.pos - 1, s.trn) := by
  have hp := pos_range s
  have hm := maximum_range s.cfg
  rw [counterUpdate, counterCcw_of_within _ (by omega)]
  exact rangeTest_keeping_turns (by omega) (by omega)

theorem counterUpdate_ccw_of_saturate (h0 : s.cfg.maximum ≠ 0)
    (h : s.pos - 1 < -(s.cfg.maximum : Int)) (hs : s.cfg.saturate = true) :
    counterUpdate s.cfg .ccw s.pos s.trn = .ok (-↑s.cfg.maximum, s.trn) := by
  have hm := maximum_range s.cfg
  rw [counterUpdate, counterCcw_of_saturate _ h0 h hs]
  exact rangeTest_keeping_turns (by omega) (by omega)

theorem counterUpdate_ccw_of_wrap (h0 : s.cfg.maximum ≠ 0) (h : s.pos - 1 < -(s.cfg.maximum : Int))
    (hs : s.cfg.saturate = false) (ht : s.cfg.turnsMin < s.trn) :
    counterUpdate s.cfg .ccw s.pos s.trn = .ok (0, s.trn - 1) := by
  have htr := trn_range s
  rw [counterUpdate, counterCcw_of_wrap _ h0 h hs]
  exact rangeTest_of_lap (by omega) (by omega)

end counterUpdate

/-! ### What a completed `STEP` leaves -/

/-- Writing back the integer that `position` holds leaves it. -/
@[simp] theorem ofInt_pos (s : State) : BitVec.ofInt s.cfg.posW s.pos = s.position :=
  BitVec.ofInt_toInt

/-- Writing back the integer that `turns` holds leaves it. -/
@[simp] theorem ofInt_trn (s : State) : BitVec.ofInt s.cfg.turnsW s.trn = s.turns :=
  BitVec.ofInt_toInt

section completedStep
variable {s : State} {p : Pins} {d : Dir}

/-- A `STEP` completes when the counter update by its cell's flag does. -/
theorem exec_step_of_ok {out : Int × Int} (hd : s.regsDefined = true)
    (hf : cellFlag s.cfg.halfStep s.state p = d)
    (hc : counterUpdate s.cfg d s.pos s.trn = .ok out) :
    exec (.step p) s = .next (stepTarget s (nextRow s.cfg.halfStep s.state p) d out) := by
  subst hf
  exact execStep_of_ok hd hc

/-- A `STEP` whose update moves `position` alone does not write `turns`. -/
theorem exec_step_keeping_turns {v : Int} (hd : s.regsDefined = true)
    (hf : cellFlag s.cfg.halfStep s.state p = d)
    (hc : counterUpdate s.cfg d s.pos s.trn = .ok (v, s.trn)) :
    exec (.step p) s = .next { s with
      state := nextRow s.cfg.halfStep s.state p, lastDir := d,
      position := BitVec.ofInt s.cfg.posW v }
    ∧ (BitVec.ofInt s.cfg.posW v).toInt = v := by
  obtain ⟨hmin, hmax, -, -⟩ := counterUpdate_ok_range hc
  refine ⟨?_, toInt_ofInt_posW _ hmin hmax⟩
  rw [exec_step_of_ok hd hf hc, stepTarget, ofInt_trn]

/-- A `STEP` whose update is a lap puts `position` to 0 and moves `turns`. -/
theorem exec_step_of_lap {v : Int} (hd : s.regsDefined = true)
    (hf : cellFlag s.cfg.halfStep s.state p = d)
    (hc : counterUpdate s.cfg d s.pos s.trn = .ok (0, v)) :
    exec (.step p) s = .next { s with
      state := nextRow s.cfg.halfStep s.state p, lastDir := d,
      position := 0, turns := BitVec.ofInt s.cfg.turnsW v }
    ∧ (BitVec.ofInt s.cfg.turnsW v).toInt = v := by
  obtain ⟨-, -, hmin, hmax⟩ := counterUpdate_ok_range hc
  exact ⟨exec_step_of_ok hd hf hc, toInt_ofInt_turnsW _ hmin hmax⟩

end completedStep

end Sys2Proof.Machine

section

open Sys2Proof Sys2Proof.Machine

/-- Settles O10: the write does not look at `MAX`, and a representable operand is read back. -/
theorem setposLoadsPositionOnly : Obligations.SetposLoadsPositionOnly :=
  fun s v hd hmin hmax => ⟨exec_setpos_of_regsDefined hd v, toInt_ofInt_posW s.cfg hmin hmax⟩

/-- Settles O11, as O10 for the other counter. -/
theorem setturnsLoadsTurnsOnly : Obligations.SetturnsLoadsTurnsOnly :=
  fun s v hd hmin hmax => ⟨exec_setturns_of_regsDefined hd v, toInt_ofInt_turnsW s.cfg hmin hmax⟩

/-- Settles O12: the update by `NONE` has no range test, so both counters are written back. -/
theorem stepWithoutFlagKeepsTheCounters : Obligations.StepWithoutFlagKeepsTheCounters := by
  intro s p hd hf
  rw [exec_step_of_ok hd hf (out := (s.pos, s.trn)) rfl, stepTarget, ofInt_pos, ofInt_trn]

/-- Settles O13: where no bound acts, at the bound in saturate mode, and at a lap. -/
theorem stepWithCwCountsForward : Obligations.StepWithCwCountsForward := by
  intro s p hd hf
  refine ⟨fun hwithin => ?_, fun h0 h hs => ?_, fun h0 h hs ht => ?_⟩
  · exact exec_step_keeping_turns hd hf (counterUpdate_cw_of_within hwithin)
  · exact exec_step_keeping_turns hd hf (counterUpdate_cw_of_saturate h0 h hs)
  · exact exec_step_of_lap hd hf (counterUpdate_cw_of_wrap h0 h hs ht)

/-- Settles O14, the mirror of O13. -/
theorem stepWithCcwCountsBackward : Obligations.StepWithCcwCountsBackward := by
  intro s p hd hf
  refine ⟨fun hwithin => ?_, fun h0 h hs => ?_, fun h0 h hs ht => ?_⟩
  · exact exec_step_keeping_turns hd hf (counterUpdate_ccw_of_within hwithin)
  · exact exec_step_keeping_turns hd hf (counterUpdate_ccw_of_saturate h0 h hs)
  · exact exec_step_of_lap hd hf (counterUpdate_ccw_of_wrap h0 h hs ht)

end
end

section
/-! PROOFS. The control commands `NOP` and `INIT` (42_control.md R95, R96). -/

namespace Sys2Proof.Machine

/-! ### What the control commands do -/

@[simp] theorem exec_nop (s : State) : exec .nop s = .next s := rfl

@[simp] theorem exec_init (s : State) : exec .init s = .next s.initialise := rfl

/-! ### `INIT` and reset -/

/-- Initialising writes every register, so only the configuration and the waiting edges of `s` are left. -/
theorem initialise_eq_resetOf (s : State) : s.initialise = State.resetOf s.cfg s.edges := rfl

@[simp] theorem resetOf_pos (c : Config) (es : List (Edge c)) : (State.resetOf c es).pos = 0 :=
  BitVec.toInt_zero

@[simp] theorem resetOf_trn (c : Config) (es : List (Edge c)) : (State.resetOf c es).trn = 0 :=
  BitVec.toInt_zero

end Sys2Proof.Machine

section

open Sys2Proof Sys2Proof.Machine

/-- Settles O8: `NOP`'s arm answers the state it was given and does not ask whether it is defined. -/
theorem nopChangesNothing : Obligations.NopChangesNothing := exec_nop

/-- Settles O9: `INIT` initialises, which is the reset state, and that state's registers hold 0 and `NONE`. -/
theorem initGivesTheResetState : Obligations.InitGivesTheResetState := by
  intro s
  refine ⟨?_, resetOf_row _ _, resetOf_lastDir _ _, resetOf_pos _ _, resetOf_trn _ _⟩
  rw [exec_init, initialise_eq_resetOf]

end
end

section
/-! PROOFS. The decoder and the edges that present a command (30_encoding.md R55 to R61;
00_scope.md R9). -/

namespace Sys2Proof.Machine

/-! ### What the decoder can answer -/

theorem posOperand_range (c : Config) (arg : BitVec c.argW) :
    c.posMin ≤ posOperand c arg ∧ posOperand c arg ≤ c.posMax :=
  ⟨BitVec.le_toInt _, Int.le_sub_one_of_lt BitVec.toInt_lt⟩

theorem turnsOperand_range (c : Config) (arg : BitVec c.argW) :
    c.turnsMin ≤ turnsOperand c arg ∧ turnsOperand c arg ≤ c.turnsMax :=
  ⟨BitVec.le_toInt _, Int.le_sub_one_of_lt BitVec.toInt_lt⟩

/-- The reserved opcodes are the three numbers above those of the commands (30_encoding.md R58). -/
theorem five_le_toNat_iff : ∀ op : Opcode, 5 ≤ op.toNat ↔ op = 0b101 ∨ op = 0b110 ∨ op = 0b111 := by
  decide

theorem five_le_toNat : ∀ {op : Opcode}, op ≠ 0b000 → op ≠ 0b001 → op ≠ 0b010 → op ≠ 0b011 →
    op ≠ 0b100 → 5 ≤ op.toNat := by decide

theorem opcodeOf_toNat_lt (i : Instr) : (opcodeOf i).toNat < 5 := by
  cases i <;> simp [opcodeOf]

/-- Everything the decoder can answer: a well-formed command of the word's opcode, or the rejection of a
reserved opcode (30_encoding.md R56 to R58). -/
theorem decode_cases (c : Config) (w : CmdWord c) :
    (∃ i, decode c w = .ok i ∧ opcodeOf i = opField w ∧ i.wf c = true)
    ∨ 5 ≤ (opField w).toNat ∧ decode c w = .error (.reservedOp (opField w)) := by
  unfold decode
  split
  case h_1 hop => exact .inl ⟨_, rfl, hop.symm, rfl⟩
  case h_2 hop => exact .inl ⟨_, rfl, hop.symm, rfl⟩
  case h_3 hop => exact .inl ⟨_, rfl, hop.symm, by simpa [Instr.wf] using posOperand_range c _⟩
  case h_4 hop => exact .inl ⟨_, rfl, hop.symm, by simpa [Instr.wf] using turnsOperand_range c _⟩
  case h_5 hop => exact .inl ⟨_, rfl, hop.symm, rfl⟩
  case h_6 h0 h1 h2 h3 h4 => exact .inr ⟨five_le_toNat h0 h1 h2 h3 h4, rfl⟩

/-- A decoded command has the opcode of its word, and is well-formed. -/
theorem decode_ok {c : Config} {w : CmdWord c} {i : Instr} (h : decode c w = .ok i) :
    opcodeOf i = opField w ∧ i.wf c = true := by
  obtain ⟨j, hj, hop, hwf⟩ | ⟨-, herr⟩ := decode_cases c w
  · cases hj.symm.trans h; exact ⟨hop, hwf⟩
  · cases herr.symm.trans h

theorem decode_error_iff {c : Config} {w : CmdWord c} {op : Opcode} :
    decode c w = .error (.reservedOp op) ↔ op = opField w ∧ 5 ≤ (opField w).toNat := by
  obtain ⟨i, hi, hop, -⟩ | ⟨h5, herr⟩ := decode_cases c w
  · have hlt := opcodeOf_toNat_lt i
    rw [hop] at hlt
    simp [hi, hlt]
  · simp [herr, h5, eq_comm]

/-! ### The opcode map -/

/-- A word selects a row of the map when its opcode field is the row's number. -/
theorem selects_iff {n : Nat} {r : OpcodeRow} (hr : r ∈ opcodeMap) (w : BitVec (n + 3)) :
    r.selects w.toNat = true ↔ r.matchBits = (opField w).toNat := by
  have hmask : ∀ r ∈ opcodeMap, r.mask = 2 ^ 3 - 1 := by decide
  rw [OpcodeRow.selects, hmask r hr, Nat.and_two_pow_sub_one_eq_mod, beq_iff_eq, eq_comm]
  simp [opField]

/-- A command is of a row of the map when its opcode is the row's number. -/
theorem mnemonic_eq_iff {r : OpcodeRow} (hr : r ∈ opcodeMap) (i : Instr) :
    i.mnemonic = r.mnemonic ↔ r.matchBits = (opcodeOf i).toNat := by
  have hrow : ∃ r' ∈ opcodeMap, r'.mnemonic = i.mnemonic ∧ r'.matchBits = (opcodeOf i).toNat := by
    cases i with
    | nop => exact (Laws.OpcodeInWord.nop Config.reference).2
    | step p => exact (Laws.OpcodeInWord.step p Config.reference).2
    | setpos v => exact (Laws.OpcodeInWord.setpos v Config.reference).2
    | setturns v => exact (Laws.OpcodeInWord.setturns v Config.reference).2
    | init => exact (Laws.OpcodeInWord.init Config.reference).2
  have hsame : ∀ r ∈ opcodeMap, ∀ r' ∈ opcodeMap,
      r'.mnemonic = r.mnemonic ↔ r.matchBits = r'.matchBits := by decide
  obtain ⟨r', hr', hm, hb⟩ := hrow
  rw [← hm, ← hb, hsame r hr r' hr']

/-! ### Edges that present a command -/

section presented
variable {s : State} {e : Edge s.cfg} {rest : List (Edge s.cfg)}

/-- An edge whose word decodes runs the command. -/
theorem step_of_decode_ok {i : Instr} (he : s.edges = e :: rest) (hrst : e.rst = false)
    (hvalid : e.cmdValid = true) (hi : decode s.cfg e.word = .ok i) : step s = exec i s.popEdge := by
  unfold step
  rw [he]
  simp [hrst, hvalid, hi]

/-- An edge whose word has a reserved opcode is refused. -/
theorem step_of_decode_error {op : Opcode} (he : s.edges = e :: rest) (hrst : e.rst = false)
    (hvalid : e.cmdValid = true) (herr : decode s.cfg e.word = .error (.reservedOp op)) :
    step s = .refused (.reservedOp op) := by
  unfold step
  rw [he]
  simp [hrst, hvalid, herr]

end presented

/-- No arm of `exec` refuses, before reset neither. -/
theorem exec_ne_refused (i : Instr) (s : State) (r : Refusal) : exec i s ≠ .refused r := by
  cases i with
  | nop => exact nofun
  | step p =>
    change whenDefined s (stepWith s _ _) ≠ _
    unfold whenDefined stepWith
    cases s.regsDefined <;> cases counterUpdate s.cfg _ s.pos s.trn <;> exact nofun
  | setpos v => simp only [exec, execSetpos, whenDefined]; split <;> exact nofun
  | setturns v => simp only [exec, execSetturns, whenDefined]; split <;> exact nofun
  | init => exact nofun

end Sys2Proof.Machine

section

open Sys2Proof Sys2Proof.Machine

/-- Settles O41: the decoder is the encoder's left inverse. -/
theorem decodeOfEncodeIsTheCommand : Obligations.DecodeOfEncodeIsTheCommand :=
  fun _ _ hwf => decode_encode hwf

/-- Settles O42, opcode by opcode: the operand is read from the used bits alone. -/
theorem ignoredArgumentBitsHaveNoEffect : Obligations.IgnoredArgumentBitsHaveNoEffect := by
  rintro c w w' ⟨hop, hpins, hpos, hturns⟩
  unfold decode
  rw [← hop]
  split
  case h_1 => rfl
  case h_2 h => simp only [pinsOperand, hpins h]
  case h_3 h => simp only [posOperand, sext, hpos h]
  case h_4 h => simp only [turnsOperand, sext, hturns h]
  case h_5 => rfl
  case h_6 => rfl

/-- Settles O43: selecting a row and decoding to a command of it both say what the opcode field is. -/
theorem decoderFollowsTheOpcodeMap : Obligations.DecoderFollowsTheOpcodeMap := by
  refine fun c w => ⟨fun r hr => ?_, fun op => decode_error_iff⟩
  rw [selects_iff hr]
  constructor
  · intro hb
    obtain ⟨i, hi, hop, -⟩ | ⟨h5, -⟩ := decode_cases c w
    · exact ⟨i, hi, (mnemonic_eq_iff hr i).mpr (by rw [hop, hb])⟩
    · have hlt : ∀ r ∈ opcodeMap, r.matchBits < 5 := by decide
      have := hlt r hr
      omega
  · rintro ⟨i, hi, hm⟩
    obtain ⟨hop, -⟩ := decode_ok hi
    rw [(mnemonic_eq_iff hr i).mp hm, hop]

/-- Settles O44: an operand is read as the integer of a bit vector of its register's width. -/
theorem decodedCommandsAreWellFormed : Obligations.DecodedCommandsAreWellFormed :=
  fun _ _ _ h => (decode_ok h).2

/-- Settles O45, word by word. -/
theorem wordsOfTheSpecDecode : Obligations.WordsOfTheSpecDecode := ⟨rfl, rfl, rfl, rfl, rfl, rfl⟩

/-- Settles O4. -/
theorem stepRunsTheDecodedCommand : Obligations.StepRunsTheDecodedCommand := by
  refine ⟨fun s op arg rest i he hi => ?_, fun s he => ?_⟩
  · rw [step_of_decode_ok he rfl rfl hi, popEdge_of_edges_cons he]
  · rw [step, he]

/-- Settles O5: the word is put before the waiting edges but the first. -/
theorem fetchWordIsTheNextCommand : Obligations.FetchWordIsTheNextCommand :=
  fun s nbits w _ hi => step_ofWord (s := s.withFetchWord nbits w) rfl hi

/-- Settles O6: a presented word is refused when its decoding is an error, and a command never is. -/
theorem reservedOpcodesAreRefused : Obligations.ReservedOpcodesAreRefused := by
  intro s op arg rest he
  have herr : ∀ op', decode s.cfg (arg ++ op) = .error (.reservedOp op') ↔ op' = op ∧ 5 ≤ op.toNat :=
    fun op' => by rw [decode_error_iff, opField_append]
  refine ⟨fun hop => ?_, fun r hr => ?_⟩
  · exact step_of_decode_error he rfl rfl ((herr op).mpr ⟨rfl, (five_le_toNat_iff op).mpr hop⟩)
  · obtain ⟨i, hi, -⟩ | ⟨h5, hd⟩ := decode_cases s.cfg (arg ++ op)
    · rw [step_of_decode_ok he rfl rfl hi] at hr
      exact absurd hr (exec_ne_refused i _ r)
    · rw [opField_append] at h5 hd
      rw [step_of_decode_error he rfl rfl hd] at hr
      cases hr
      exact ⟨rfl, (five_le_toNat_iff op).mp h5⟩

end
end

section
/-! PROOFS. `STEP` as the FSM's move and the counters' (40_decoder_step.md R70; 41_position_counter.md
R80 to R85), both directions at once. -/

namespace Sys2Proof.Machine

/-! ### The counters after any flag, before the range test -/

/-- The bound acts on a flag when the next event would lie beyond it, in the flag's own direction
(41_position_counter.md R81, R82). -/
abbrev BoundActs (c : Config) (d : Dir) (pos : Int) : Prop :=
  c.maximum ≠ 0 ∧ (c.maximum : Int) < d.delta * (pos + d.delta)

/-- `counterCw` and `counterCcw` as one, `NONE` included (`counterUpdate_eq` ties it to the model). -/
def movedCounters (c : Config) (d : Dir) (pos trn : Int) : Int × Int :=
  if BoundActs c d pos then
    if c.saturate then (d.delta * c.maximum, trn) else (0, trn + d.delta)
  else (pos + d.delta, trn)

/-- Where the bound does not act, saturate mode, wrap mode. -/
theorem movedCounters_cases (c : Config) (d : Dir) (pos trn : Int) :
    (¬ BoundActs c d pos ∧ movedCounters c d pos trn = (pos + d.delta, trn))
    ∨ (BoundActs c d pos ∧ c.saturate = true ∧ movedCounters c d pos trn = (d.delta * c.maximum, trn))
    ∨ (BoundActs c d pos ∧ c.saturate = false ∧ movedCounters c d pos trn = (0, trn + d.delta)) := by
  by_cases h : BoundActs c d pos
  · cases hs : c.saturate
    · exact .inr (.inr ⟨h, rfl, by simp only [movedCounters, if_pos h, hs, Bool.false_eq_true, if_false]⟩)
    · exact .inr (.inl ⟨h, rfl, by simp only [movedCounters, if_pos h, hs, if_true]⟩)
  · exact .inl ⟨h, if_neg h⟩

theorem not_boundActs_none (c : Config) (pos : Int) : ¬ BoundActs c .none pos := by
  simp [BoundActs, Dir.delta]

@[simp] theorem movedCounters_none (c : Config) (pos trn : Int) :
    movedCounters c .none pos trn = (pos, trn) := by
  simp [movedCounters, not_boundActs_none, Dir.delta]

theorem movedCounters_cw (c : Config) (pos trn : Int) :
    movedCounters c .cw pos trn = counterCw c pos trn := by
  simp [movedCounters, counterCw, BoundActs, Dir.delta]

theorem movedCounters_ccw (c : Config) (pos trn : Int) :
    movedCounters c .ccw pos trn = counterCcw c pos trn := by
  have hact : BoundActs c .ccw pos ↔ c.maximum ≠ 0 ∧ pos - 1 < -(c.maximum : Int) := by
    simp only [BoundActs, Dir.delta]; omega
  simp [movedCounters, counterCcw, hact, Dir.delta, sub_eq_add_neg]

/-- A flag's update is the range test of the moved counters; `NONE` has no test. -/
theorem counterUpdate_eq {c : Config} {d : Dir} (hd : d ≠ .none) (pos trn : Int) :
    counterUpdate c d pos trn = rangeTest c d pos trn (movedCounters c d pos trn) := by
  cases d with
  | none => exact absurd rfl hd
  | cw => rw [movedCounters_cw, counterUpdate]
  | ccw => rw [movedCounters_ccw, counterUpdate]

theorem counterUpdate_ok {c : Config} {d : Dir} {pos trn : Int} {out : Int × Int}
    (h : counterUpdate c d pos trn = .ok out) : out = movedCounters c d pos trn := by
  by_cases hd : d = .none
  · subst hd; cases h; exact (movedCounters_none c pos trn).symm
  · rw [counterUpdate_eq hd] at h; exact (rangeTest_ok h).1

/-! ### The range test fails (41_position_counter.md R84, R85) -/

theorem rangeTest_error_iff {c : Config} {d : Dir} {pos trn : Int} {new : Int × Int} {f : Fault} :
    rangeTest c d pos trn new = .error f ↔
      (new.1 < c.posMin ∨ c.posMax < new.1) ∧ f = .posRange d pos
      ∨ ¬ (new.1 < c.posMin ∨ c.posMax < new.1) ∧ (new.2 < c.turnsMin ∨ c.turnsMax < new.2)
        ∧ f = .turnsRange d trn := by
  unfold rangeTest
  split
  next h => simp [h, eq_comm]
  next h => split <;> simp [*, eq_comm]

/-- `position` leaves its range at an end of it, without a bound only (41_position_counter.md R84). -/
theorem movedCounters_pos_out_iff (s : State) (d : Dir) :
    (movedCounters s.cfg d s.pos s.trn).1 < s.cfg.posMin
        ∨ s.cfg.posMax < (movedCounters s.cfg d s.pos s.trn).1 ↔
      s.cfg.maximum = 0
        ∧ (d = .cw ∧ s.pos = s.cfg.posMax ∨ d = .ccw ∧ s.pos = s.cfg.posMin) := by
  have hp := pos_range s
  have hm := maximum_range s.cfg
  obtain ⟨hact, heq⟩ | ⟨hact, -, heq⟩ | ⟨hact, -, heq⟩ := movedCounters_cases s.cfg d s.pos s.trn
  · rw [heq]
    cases d <;> simp [BoundActs, Dir.delta] at hact ⊢ <;> omega
  · rw [heq]
    cases d <;> simp [BoundActs, Dir.delta] at hact ⊢ <;> omega
  · rw [heq]
    cases d <;> simp [BoundActs, Dir.delta] at hact ⊢ <;> omega

/-- `turns` leaves its range at an end of it, at a wrap only (41_position_counter.md R85). -/
theorem movedCounters_trn_out_iff (s : State) (d : Dir) :
    (movedCounters s.cfg d s.pos s.trn).2 < s.cfg.turnsMin
        ∨ s.cfg.turnsMax < (movedCounters s.cfg d s.pos s.trn).2 ↔
      s.cfg.maximum ≠ 0 ∧ s.cfg.saturate = false
        ∧ (d = .cw ∧ s.cfg.maximum < s.pos + 1 ∧ s.trn = s.cfg.turnsMax
          ∨ d = .ccw ∧ s.pos - 1 < -(s.cfg.maximum : Int) ∧ s.trn = s.cfg.turnsMin) := by
  have ht := trn_range s
  obtain ⟨hact, heq⟩ | ⟨hact, hs, heq⟩ | ⟨hact, hs, heq⟩ := movedCounters_cases s.cfg d s.pos s.trn
  · rw [heq]
    cases d <;> simp [BoundActs, Dir.delta] at hact ⊢ <;> omega
  · simp [heq, hs, ht]
  · rw [heq, hs]
    cases d <;> simp [BoundActs, Dir.delta] at hact ⊢ <;> omega

theorem counterUpdate_error_iff {s : State} {d : Dir} {f : Fault} :
    counterUpdate s.cfg d s.pos s.trn = .error f ↔
      (f = .posRange d s.pos ∧ s.cfg.maximum = 0
        ∧ (d = .cw ∧ s.pos = s.cfg.posMax ∨ d = .ccw ∧ s.pos = s.cfg.posMin))
      ∨ (f = .turnsRange d s.trn ∧ s.cfg.maximum ≠ 0 ∧ s.cfg.saturate = false
        ∧ (d = .cw ∧ s.cfg.maximum < s.pos + 1 ∧ s.trn = s.cfg.turnsMax
          ∨ d = .ccw ∧ s.pos - 1 < -(s.cfg.maximum : Int) ∧ s.trn = s.cfg.turnsMin)) := by
  by_cases hd : d = .none
  · subst hd
    simp [counterUpdate]
  · rw [counterUpdate_eq hd, rangeTest_error_iff, movedCounters_pos_out_iff, movedCounters_trn_out_iff]
    constructor
    · rintro (⟨hpos, hf⟩ | ⟨-, htrn, hf⟩)
      · exact .inl ⟨hf, hpos⟩
      · exact .inr ⟨hf, htrn⟩
    · rintro (⟨hf, hpos⟩ | ⟨hf, htrn⟩)
      · exact .inl ⟨hpos, hf⟩
      · exact .inr ⟨fun hpos => htrn.1 hpos.1, htrn, hf⟩

/-! ### The command -/

/-- How a `STEP` ends when its counter update has ended. -/
def outcomeOf (next : Int × Int → State) : Except Fault (Int × Int) → Result
  | .ok out => .next (next out)
  | .error f => .fault f

/-- After reset a `STEP` is the counter update by its cell's flag, then the four writes. -/
theorem exec_step_eq {s : State} (hd : s.regsDefined = true) (p : Pins) :
    exec (.step p) s = outcomeOf
      (stepTarget s (nextRow s.cfg.halfStep s.state p) (cellFlag s.cfg.halfStep s.state p))
      (counterUpdate s.cfg (cellFlag s.cfg.halfStep s.state p) s.pos s.trn) := by
  change whenDefined s (stepWith s _ _) = _
  rw [whenDefined_of_regsDefined hd, stepWith]
  cases counterUpdate s.cfg (cellFlag s.cfg.halfStep s.state p) s.pos s.trn <;> rfl

/-- The registers after a `STEP` that completes, as numbers. -/
theorem exec_step_next {s t : State} {p : Pins} (h : exec (.step p) s = .next t) :
    t.cfg = s.cfg ∧ t.row = nextRow s.cfg.halfStep s.state p
      ∧ t.lastDir = cellFlag s.cfg.halfStep s.state p
      ∧ (t.pos, t.trn) = movedCounters s.cfg t.lastDir s.pos s.trn := by
  obtain ⟨-, out, hc, rfl⟩ := execStep_next h
  obtain ⟨hpos, htrn, hrow, hdir, hcfg⟩ := stepTarget_values hc
  refine ⟨hcfg, hrow, hdir, ?_⟩
  rw [hpos, htrn, hdir, ← counterUpdate_ok hc]

/-! ### The cells of the two tables -/

/-- Reading 00 leads to `START`; in half-step mode reading 11 leads to `MID` (40_decoder_step.md R76). -/
theorem nextRow_detent : ∀ (half : Bool) (s : Fin (nrowsOf half)),
    (nextRow half s 0b00).val = 0 ∧ (half = true → (nextRow half s 0b11).val = 3) := by decide

/-- A reading read again finds `NONE` (20_memory.md R40 (a)). -/
theorem cellFlag_repeat : ∀ (half : Bool) (s : Fin (nrowsOf half)) (p : Pins),
    cellFlag half (nextRow half s p) p = .none := by decide

/-- From the second repeat on the row stays (20_memory.md R40 (b)). -/
theorem nextRow_repeat : ∀ (half : Bool) (s : Fin (nrowsOf half)) (p : Pins),
    nextRow half (nextRow half (nextRow half s p) p) p = nextRow half (nextRow half s p) p := by decide

/-- The pairs whose first repeat moves the row (20_memory.md R40 (c)). -/
theorem nextRow_repeat_ne_iff : ∀ (half : Bool) (s : Fin (nrowsOf half)) (p : Pins),
    nextRow half (nextRow half s p) p ≠ nextRow half s p ↔
      (half = false ∧ ((s.val = 1 ∨ s.val = 6) ∧ p = 0b10 ∨ (s.val = 3 ∨ s.val = 4) ∧ p = 0b01))
      ∨ (half = true ∧ ((s.val = 1 ∨ s.val = 5) ∧ p = 0b10 ∨ (s.val = 2 ∨ s.val = 4) ∧ p = 0b01)) := by
  decide

end Sys2Proof.Machine

section

open Sys2Proof Sys2Proof.Machine

/-- Settles O15: a `STEP` faults when its counter update does. -/
theorem stepFaultsExactlyOutOfRange : Obligations.StepFaultsExactlyOutOfRange := by
  intro s p f hd
  rw [exec_step_eq hd, ← counterUpdate_error_iff]
  cases counterUpdate s.cfg (cellFlag s.cfg.halfStep s.state p) s.pos s.trn <;> simp [outcomeOf]

/-- Settles O16: `STEP` alone has a counter update; the others complete after reset. -/
theorem onlyStepFaultsAfterReset : Obligations.OnlyStepFaultsAfterReset := by
  refine fun i s hd => ⟨exec_ne_refused i s, fun f hf => ?_⟩
  cases i with
  | nop => cases hf
  | step p => exact ⟨p, rfl⟩
  | setpos v => rw [exec_setpos_of_regsDefined hd] at hf; cases hf
  | setturns v => rw [exec_setturns_of_regsDefined hd] at hf; cases hf
  | init => cases hf

/-- Settles O21, cell by cell. -/
theorem repeatedReadingsSettle : Obligations.RepeatedReadingsSettle :=
  fun half s p => ⟨cellFlag_repeat half s p, nextRow_repeat half s p, nextRow_repeat_ne_iff half s p⟩

/-- Settles O23, from the tables' columns 00 and 11 and from where their flags are. -/
theorem detentReadingsResynchronise : Obligations.DetentReadingsResynchronise := by
  intro s t p h
  obtain ⟨-, hrow, hdir, -⟩ := exec_step_next h
  obtain ⟨hstart, hmid⟩ := nextRow_detent s.cfg.halfStep s.state
  refine ⟨?_, ?_, ?_⟩
  · rintro rfl; rw [hrow, hstart]
  · rintro hhalf rfl; rw [hrow, hmid hhalf]
  · rw [hdir, cellFlag_ne_none_iff]
    rintro (⟨-, -, hp⟩ | ⟨hhalf, ⟨-, hp⟩ | ⟨-, hp⟩⟩)
    · exact .inl hp
    · exact .inr ⟨hhalf, hp⟩
    · exact .inl hp

/-- Settles O34: of the three ways the counters move, a wrap alone moves `turns`. -/
theorem stepMovesTurnsOnlyAtAWrap : Obligations.StepMovesTurnsOnlyAtAWrap := by
  intro s t p h hne
  obtain ⟨-, -, -, hmoved⟩ := exec_step_next h
  obtain ⟨-, heq⟩ | ⟨-, -, heq⟩ | ⟨hact, hs, heq⟩ := movedCounters_cases s.cfg t.lastDir s.pos s.trn
  · exact absurd (Prod.mk.inj (hmoved.trans heq)).2 hne
  · exact absurd (Prod.mk.inj (hmoved.trans heq)).2 hne
  · obtain ⟨hpos, htrn⟩ := Prod.mk.inj (hmoved.trans heq)
    refine ⟨hact.1, hs, hpos, ?_⟩
    cases hdir : t.lastDir with
    | none => rw [hdir] at hact; exact absurd hact (not_boundActs_none s.cfg s.pos)
    | cw => exact .inl ⟨rfl, by rw [htrn, hdir]; rfl⟩
    | ccw => exact .inr ⟨rfl, by rw [htrn, hdir]; rfl⟩

/-- Settles O37: the cell is looked up by row and reading. -/
theorem countersDoNotSteerTheFsm : Obligations.CountersDoNotSteerTheFsm := by
  intro s t u p x y ht hu
  obtain ⟨-, hrow, hdir, -⟩ := exec_step_next ht
  obtain ⟨-, hrow', hdir', -⟩ := exec_step_next hu
  exact ⟨hrow'.trans hrow.symm, hdir'.trans hdir.symm⟩

end
end

section
/-! PROOFS. Runs of `STEP`s as two folds over the readings: the FSM's, which never looks at the counters
(40_decoder_step.md R73), and the counters', which sees the flags alone. -/

namespace Sys2Proof.Machine

/-! ### The two folds -/

/-- The flags of the cells that readings visit from a row. -/
def flagsAlong (half : Bool) : Fin (nrowsOf half) → List Pins → List Dir
  | _, [] => []
  | r, p :: ps => cellFlag half r p :: flagsAlong half (nextRow half r p) ps

/-- The row that readings lead to from a row. -/
abbrev rowAfter (half : Bool) (r : Fin (nrowsOf half)) (ps : List Pins) : Fin (nrowsOf half) :=
  ps.foldl (nextRow half) r

/-- `position` and `turns` after flags, one `CounterUpdate` a flag. -/
def countFlags (c : Config) (ds : List Dir) (pt : Int × Int) : Except Fault (Int × Int) :=
  ds.foldlM (fun x d => counterUpdate c d x.1 x.2) pt

/-- The number of `CW` flags less the number of `CCW` flags. -/
def netOf (ds : List Dir) : Int := (ds.map Dir.delta).sum

@[simp] theorem netOf_nil : netOf [] = 0 := rfl

@[simp] theorem netOf_cons (d : Dir) (ds : List Dir) : netOf (d :: ds) = d.delta + netOf ds :=
  List.sum_cons

@[simp] theorem length_flagsAlong (half : Bool) (r : Fin (nrowsOf half)) (ps : List Pins) :
    (flagsAlong half r ps).length = ps.length := by
  induction ps generalizing r with
  | nil => rfl
  | cons p ps ih => rw [flagsAlong, List.length_cons, ih, List.length_cons]

theorem rowAfter_append (half : Bool) (r : Fin (nrowsOf half)) (ps qs : List Pins) :
    rowAfter half r (ps ++ qs) = rowAfter half (rowAfter half r ps) qs := List.foldl_append

theorem flagsAlong_append (half : Bool) (r : Fin (nrowsOf half)) (ps qs : List Pins) :
    flagsAlong half r (ps ++ qs)
      = flagsAlong half r ps ++ flagsAlong half (rowAfter half r ps) qs := by
  induction ps generalizing r with
  | nil => rfl
  | cons p ps ih => exact congrArg (_ :: ·) (ih (nextRow half r p))

@[simp] theorem countFlags_nil (c : Config) (pt : Int × Int) : countFlags c [] pt = .ok pt := rfl

theorem countFlags_cons {c : Config} {d : Dir} {ds : List Dir} {pt pt' : Int × Int}
    (h : counterUpdate c d pt.1 pt.2 = .ok pt') : countFlags c (d :: ds) pt = countFlags c ds pt' := by
  rw [countFlags, List.foldlM_cons, h]; rfl

/-- Counting that completes began with an update that completes. -/
theorem countFlags_cons_ok {c : Config} {d : Dir} {ds : List Dir} {pt out : Int × Int}
    (h : countFlags c (d :: ds) pt = .ok out) :
    ∃ mid, counterUpdate c d pt.1 pt.2 = .ok mid ∧ countFlags c ds mid = .ok out := by
  rw [countFlags, List.foldlM_cons] at h
  cases hu : counterUpdate c d pt.1 pt.2 with
  | ok mid => rw [hu] at h; exact ⟨mid, rfl, h⟩
  | error f => rw [hu] at h; cases h

/-- What the two counters can hold. -/
def InRange (c : Config) (pt : Int × Int) : Prop :=
  c.posMin ≤ pt.1 ∧ pt.1 ≤ c.posMax ∧ c.turnsMin ≤ pt.2 ∧ pt.2 ≤ c.turnsMax

/-- The counters stay in range: `NONE` moves nothing, and a flag is range-tested. -/
theorem countFlags_inRange {c : Config} {ds : List Dir} {pt out : Int × Int} (hpt : InRange c pt)
    (h : countFlags c ds pt = .ok out) : InRange c out := by
  induction ds generalizing pt with
  | nil => cases h; exact hpt
  | cons d ds ih =>
    obtain ⟨mid, hc, hrest⟩ := countFlags_cons_ok h
    refine ih ?_ hrest
    by_cases hd : d = .none
    · subst hd; cases hc; exact hpt
    · rw [counterUpdate_eq hd] at hc
      obtain ⟨rfl, hr⟩ := rangeTest_ok hc
      exact hr

/-- A flag whose moved counters are in range is counted. -/
theorem counterUpdate_of_inRange {c : Config} {d : Dir} {pos trn : Int}
    (h : InRange c (movedCounters c d pos trn)) :
    counterUpdate c d pos trn = .ok (movedCounters c d pos trn) := by
  obtain ⟨h1, h2, h3, h4⟩ := h
  by_cases hd : d = .none
  · subst hd; rw [movedCounters_none]; rfl
  · rw [counterUpdate_eq hd, rangeTest_of_range h1 h2 h3 h4]

/-! ### The run -/

/-- The state after readings that end with the given counters: nothing waits any more. -/
def readTarget (s : State) (ps : List Pins) (out : Int × Int) : State :=
  { s with
    state := rowAfter s.cfg.halfStep s.state ps
    lastDir := (flagsAlong s.cfg.halfStep s.state ps).getLastD s.lastDir
    position := BitVec.ofInt s.cfg.posW out.1
    turns := BitVec.ofInt s.cfg.turnsW out.2
    edges := [] }

/-- The first reading's `STEP`, and then the rest. -/
theorem step_reading_cons (s : State) (p : Pins) (ps : List Pins) :
    step (s.reading (p :: ps)) = presentingOutcome (ps.map .step) (exec (.step p) s) :=
  step_presenting_cons _ rfl

/-- The state after the `STEP` of a reading whose counter update gave `mid`. -/
abbrev afterStep (s : State) (p : Pins) (mid : Int × Int) : State :=
  stepTarget s (nextRow s.cfg.halfStep s.state p) (cellFlag s.cfg.halfStep s.state p) mid

/-- The first `STEP`'s state on the way to the last one's. -/
theorem readTarget_afterStep (s : State) (p : Pins) (ps : List Pins) (mid : Int × Int) :
    readTarget (afterStep s p mid) ps = readTarget s (p :: ps) := by
  funext out
  rw [readTarget, readTarget, flagsAlong, List.getLastD_cons]
  rfl

section run
variable {s : State}

/-- A run of `STEP`s from a state after reset is the two folds. -/
theorem runN_reading (hd : s.regsDefined = true) (ps : List Pins) :
    runN ps.length (s.reading ps) = outcomeOf (readTarget s ps)
      (countFlags s.cfg (flagsAlong s.cfg.halfStep s.state ps) (s.pos, s.trn)) := by
  induction ps generalizing s with
  | nil =>
    rw [flagsAlong, countFlags_nil, outcomeOf, readTarget, ofInt_pos, ofInt_trn]; rfl
  | cons p ps ih =>
    rw [List.length_cons, runN, step_reading_cons, exec_step_eq hd, flagsAlong]
    cases hc : counterUpdate s.cfg (cellFlag s.cfg.halfStep s.state p) s.pos s.trn with
    | error f => rw [countFlags, List.foldlM_cons, hc]; rfl
    | ok out =>
      obtain ⟨hpos, htrn, -⟩ := stepTarget_values (r := nextRow s.cfg.halfStep s.state p) hc
      have hrest := ih (s := afterStep s p out) hd
      rw [hpos, htrn, readTarget_afterStep] at hrest
      rw [countFlags_cons hc]
      exact hrest

/-- A run of `STEP`s that completes counted its flags. -/
theorem runN_reading_next {t : State} {ps : List Pins} (hd : s.regsDefined = true)
    (h : runN ps.length (s.reading ps) = .next t) :
    ∃ out, countFlags s.cfg (flagsAlong s.cfg.halfStep s.state ps) (s.pos, s.trn) = .ok out
      ∧ t = readTarget s ps out := by
  rw [runN_reading hd] at h
  cases hc : countFlags s.cfg (flagsAlong s.cfg.halfStep s.state ps) (s.pos, s.trn) with
  | ok out => rw [hc] at h; cases h; exact ⟨out, rfl, rfl⟩
  | error f => rw [hc] at h; cases h

/-- The host reads the flags of the visited cells. -/
theorem netFlags_reading {ps : List Pins} {out : Int × Int} (hd : s.regsDefined = true)
    (h : countFlags s.cfg (flagsAlong s.cfg.halfStep s.state ps) (s.pos, s.trn) = .ok out) :
    netFlags ps.length (s.reading ps) = netOf (flagsAlong s.cfg.halfStep s.state ps) := by
  induction ps generalizing s with
  | nil => rfl
  | cons p ps ih =>
    obtain ⟨mid, hc, hrest⟩ := countFlags_cons_ok h
    obtain ⟨hpos, htrn, -⟩ := stepTarget_values (r := nextRow s.cfg.halfStep s.state p) hc
    rw [List.length_cons, netFlags, step_reading_cons, exec_step_of_ok hd rfl hc, flagsAlong, netOf_cons]
    refine congrArg (_ + ·) (ih (s := afterStep s p mid) hd ?_)
    rw [hpos, htrn]
    exact hrest

/-- The registers at the end of a run whose counting completes, as numbers. -/
theorem readTarget_values {ps : List Pins} {out : Int × Int}
    (h : countFlags s.cfg (flagsAlong s.cfg.halfStep s.state ps) (s.pos, s.trn) = .ok out) :
    (readTarget s ps out).pos = out.1 ∧ (readTarget s ps out).trn = out.2 := by
  have ⟨hp, hp'⟩ := pos_range s
  have ⟨ht, ht'⟩ := trn_range s
  obtain ⟨h1, h2, h3, h4⟩ := countFlags_inRange ⟨hp, hp', ht, ht'⟩ h
  exact ⟨toInt_ofInt_posW _ h1 h2, toInt_ofInt_turnsW _ h3 h4⟩

/-- Where a run whose counting completes ends, as numbers. -/
theorem exists_runN_reading {ps : List Pins} {out : Int × Int} (hd : s.regsDefined = true)
    (h : countFlags s.cfg (flagsAlong s.cfg.halfStep s.state ps) (s.pos, s.trn) = .ok out) :
    ∃ t, runN ps.length (s.reading ps) = .next t
      ∧ t.cfg = s.cfg ∧ t.row = rowAfter s.cfg.halfStep s.state ps ∧ t.pos = out.1 ∧ t.trn = out.2
      ∧ t.lastDir = (flagsAlong s.cfg.halfStep s.state ps).getLastD s.lastDir := by
  obtain ⟨hpos, htrn⟩ := readTarget_values h
  exact ⟨readTarget s ps out, by rw [runN_reading hd, h, outcomeOf], rfl, rfl, hpos, htrn, rfl⟩

end run

/-- Where a run from reset whose counting completes ends, and what the host read on the way. -/
theorem exists_runN_reading_resetOf {c : Config} {ps : List Pins} {out : Int × Int}
    (h : countFlags c (flagsAlong c.halfStep (startRow c) ps) (0, 0) = .ok out) :
    ∃ t, runN ps.length ((State.resetOf c []).reading ps) = .next t
      ∧ t.row = rowAfter c.halfStep (startRow c) ps ∧ t.pos = out.1 ∧ t.trn = out.2
      ∧ netFlags ps.length ((State.resetOf c []).reading ps)
        = netOf (flagsAlong c.halfStep (startRow c) ps) := by
  have hcount : countFlags c (flagsAlong c.halfStep (startRow c) ps)
      ((State.resetOf c []).pos, (State.resetOf c []).trn) = .ok out := by
    rw [resetOf_pos, resetOf_trn, h]
  obtain ⟨t, hrun, -, hrow, hpos, htrn, -⟩ := exists_runN_reading (s := State.resetOf c []) rfl hcount
  exact ⟨t, hrun, hrow, hpos, htrn, netFlags_reading (s := State.resetOf c []) rfl hcount⟩

/-! ### Flags that count nothing, without a bound, and in laps -/

/-- Flags that are all `NONE` leave the counters. -/
theorem countFlags_replicate_none (c : Config) (n : Nat) (pt : Int × Int) :
    countFlags c (List.replicate n .none) pt = .ok pt := by
  induction n with
  | zero => rfl
  | succ n ih => rw [List.replicate_succ, countFlags_cons rfl, ih]

/-- Without a bound, as many flags as `position` has room for are all counted. -/
theorem countFlags_unbounded {c : Config} (h0 : c.maximum = 0) {ds : List Dir} {pos trn : Int}
    (hpos : |pos| + ds.length ≤ c.posMax) (htrn : c.turnsMin ≤ trn ∧ trn ≤ c.turnsMax) :
    countFlags c ds (pos, trn) = .ok (pos + netOf ds, trn) := by
  induction ds generalizing pos with
  | nil => simp
  | cons d ds ih =>
    have hm := maximum_range c
    have hmoved : movedCounters c d pos trn = (pos + d.delta, trn) := if_neg (by simp [h0])
    have habs : |d.delta| ≤ 1 := by cases d <;> decide
    have htri := abs_add_le pos d.delta
    rw [List.length_cons] at hpos
    push_cast at hpos
    have hle := abs_le.mp (show |pos + d.delta| ≤ c.posMax by omega)
    have hupd : counterUpdate c d pos trn = .ok (pos + d.delta, trn) := by
      rw [← hmoved]
      apply counterUpdate_of_inRange
      rw [hmoved]
      exact ⟨by dsimp only; omega, hle.2, htrn⟩
    rw [countFlags_cons hupd, ih (by omega), netOf_cons, add_assoc]

/-- −`MAX` ≤ `position` ≤ `MAX` is kept by every flag where there is a bound (41_position_counter.md
R91). -/
theorem movedCounters_bounded {c : Config} (h0 : c.maximum ≠ 0) (d : Dir) {pos : Int} (trn : Int)
    (h : -(c.maximum : Int) ≤ pos ∧ pos ≤ c.maximum) :
    -(c.maximum : Int) ≤ (movedCounters c d pos trn).1 ∧ (movedCounters c d pos trn).1 ≤ c.maximum := by
  obtain ⟨hact, heq⟩ | ⟨-, -, heq⟩ | ⟨-, -, heq⟩ := movedCounters_cases c d pos trn
  · rw [heq]
    cases d <;> simp [BoundActs, Dir.delta] at hact ⊢ <;> omega
  · rw [heq]
    cases d <;> simp [Dir.delta]
  · simp [heq]

/-- In wrap mode `turns`·(`MAX` + 1) + `position` moves by the flag (41_position_counter.md R90). -/
theorem movedCounters_lap {c : Config} (hs : c.saturate = false) (d : Dir) {pos : Int} (trn : Int)
    (h : -(c.maximum : Int) ≤ pos ∧ pos ≤ c.maximum) :
    (movedCounters c d pos trn).2 * (c.maximum + 1) + (movedCounters c d pos trn).1
      = trn * (c.maximum + 1) + pos + d.delta := by
  obtain ⟨-, heq⟩ | ⟨-, hsat, -⟩ | ⟨hact, -, heq⟩ := movedCounters_cases c d pos trn
  · rw [heq, add_assoc]
  · rw [hs] at hsat; cases hsat
  · have hturn : d.delta * (c.maximum + 1) = pos + d.delta := by
      cases d <;> simp [BoundActs, Dir.delta] at hact ⊢ <;> omega
    rw [heq, add_assoc, ← hturn]
    ring

/-- R90 along flags. -/
theorem countFlags_lap {c : Config} (h0 : c.maximum ≠ 0) (hs : c.saturate = false) {ds : List Dir}
    {pt out : Int × Int} (hb : -(c.maximum : Int) ≤ pt.1 ∧ pt.1 ≤ c.maximum)
    (h : countFlags c ds pt = .ok out) :
    out.2 * (c.maximum + 1) + out.1 = pt.2 * (c.maximum + 1) + pt.1 + netOf ds
      ∧ -(c.maximum : Int) ≤ out.1 ∧ out.1 ≤ c.maximum := by
  induction ds generalizing pt with
  | nil => cases h; exact ⟨(add_zero _).symm, hb⟩
  | cons d ds ih =>
    obtain ⟨mid, hc, hrest⟩ := countFlags_cons_ok h
    obtain rfl := counterUpdate_ok hc
    obtain ⟨hlap, hbound⟩ := ih (movedCounters_bounded h0 d _ hb) hrest
    rw [movedCounters_lap hs d _ hb, add_assoc _ d.delta] at hlap
    exact ⟨hlap, hbound⟩

/-! ### Walks of the pins (20_memory.md R41) -/

@[simp] theorem length_walkReadings (phase : Int) (ms : List Move) :
    (walkReadings phase ms).length = ms.length := by
  induction ms generalizing phase with
  | nil => rfl
  | cons m ms ih => rw [walkReadings, List.length_cons, ih, List.length_cons]

/-- The pins repeat after a cycle. -/
theorem readingAt_emod_add (phase d : Int) : readingAt (phase % 4 + d) = readingAt (phase + d) := by
  simp [readingAt]

/-- The start row is at home at 00, which is the reading at phase 0. -/
theorem homeReading_start : ∀ (half : Bool) (z : Fin (nrowsOf half)), z.val = 0 →
    homeReading half z = readingAt 0 := by decide

theorem rowOffset_start : ∀ (half : Bool) (z : Fin (nrowsOf half)), z.val = 0 →
    rowOffset half z = 0 := by decide

/-- The winding invariant over one move, for the phases of one cycle: the row reached is at its home
reading, and its offset has moved by the move less the flag's quarters. -/
theorem winding_of_move_in_cycle (m : Move) :
    ∀ (half : Bool) (r : Fin (nrowsOf half)) (k : Fin 4) (p : Pins),
      p = readingAt (k.val + m.delta) → readingAt k.val = homeReading half r →
      p = homeReading half (nextRow half r p)
      ∧ m.delta - quartersPerFlag half * (cellFlag half r p).delta
        = rowOffset half (nextRow half r p) - rowOffset half r := by
  cases m <;> decide

/-- The winding invariant over one move, from every phase. -/
theorem winding_of_move {half : Bool} {r : Fin (nrowsOf half)} {phase : Int}
    (h : readingAt phase = homeReading half r) (m : Move) {p : Pins}
    (hp : p = readingAt (phase + m.delta)) :
    p = homeReading half (nextRow half r p)
      ∧ m.delta - quartersPerFlag half * (cellFlag half r p).delta
        = rowOffset half (nextRow half r p) - rowOffset half r := by
  obtain ⟨k, hk⟩ : ∃ k : Fin 4, (k.val : Int) = phase % 4 :=
    ⟨⟨(phase % 4).toNat, by omega⟩, by dsimp only; omega⟩
  have hstart : readingAt (k.val : Int) = readingAt phase := by
    simpa [hk] using readingAt_emod_add phase 0
  exact winding_of_move_in_cycle m half r k p (by rw [hp, hk, readingAt_emod_add]) (hstart.trans h)

/-- The winding invariant of the FSM along a walk. -/
theorem winding_of_walk {half : Bool} {r : Fin (nrowsOf half)} {phase : Int}
    (h : readingAt phase = homeReading half r) (ms : List Move) :
    readingAt (walkPhase phase ms)
        = homeReading half (rowAfter half r (walkReadings phase ms))
      ∧ walkPhase phase ms - phase - quartersPerFlag half * netOf (flagsAlong half r (walkReadings phase ms))
        = rowOffset half (rowAfter half r (walkReadings phase ms)) - rowOffset half r := by
  induction ms generalizing r phase with
  | nil => exact ⟨h, by simp [walkPhase, walkReadings, flagsAlong]⟩
  | cons m ms ih =>
    obtain ⟨hhome, hmove⟩ := winding_of_move h m rfl
    obtain ⟨hlast, hrest⟩ := ih hhome
    refine ⟨hlast, ?_⟩
    rw [walkPhase, walkReadings, flagsAlong, netOf_cons, rowAfter, List.foldl_cons]
    linarith

/-! ### Clean cycles (30_encoding.md R62) -/

/-- The readings of one clean cycle from the 00 detent. -/
def cycleReadings : Dir → List Pins
  | .none => []
  | .cw => [1, 3, 2, 0]
  | .ccw => [2, 3, 1, 0]

/-- `n` cycles' commands are `STEP`s of `n` cycles' readings. -/
theorem cycles_eq_map_step (n : Nat) (ps : List Pins) :
    cycles n (ps.map .step) = (List.replicate n ps).flatten.map .step := by
  rw [cycles, List.map_flatten, List.map_replicate]

/-- One clean cycle from `START` leads back there. -/
theorem rowAfter_cycle (d : Dir) : ∀ (half : Bool) (z : Fin (nrowsOf half)), z.val = 0 →
    rowAfter half z (cycleReadings d) = z := by cases d <;> decide

/-- The flags of one clean cycle from `START`. -/
theorem filter_flagsAlong_cycle {d : Dir} (hd : d ≠ .none) :
    ∀ (half : Bool) (z : Fin (nrowsOf half)), z.val = 0 →
      (flagsAlong half z (cycleReadings d)).filter (· ≠ .none)
        = List.replicate (flagsPerCycle half) d := by
  cases d with
  | none => exact absurd rfl hd
  | cw => decide
  | ccw => decide

/-- `n` clean cycles from `START` lead back there, each with its flags. -/
theorem cycles_from_start {half : Bool} {z : Fin (nrowsOf half)} (hz : z.val = 0) {d : Dir}
    (hd : d ≠ .none) (n : Nat) :
    rowAfter half z (List.replicate n (cycleReadings d)).flatten = z
      ∧ (flagsAlong half z (List.replicate n (cycleReadings d)).flatten).filter (· ≠ .none)
        = List.replicate (flagsPerCycle half * n) d := by
  induction n with
  | zero => exact ⟨rfl, rfl⟩
  | succ n ih =>
    obtain ⟨hrow, hflags⟩ := ih
    have hcycle := rowAfter_cycle d half z hz
    rw [List.replicate_succ, List.flatten_cons, rowAfter_append, hcycle, flagsAlong_append, hcycle,
      List.filter_append, filter_flagsAlong_cycle hd half z hz, hflags, ← List.replicate_add]
    exact ⟨hrow, by rw [Nat.mul_succ, Nat.add_comm]⟩

/-- `NONE` is not counted. -/
theorem countFlags_filter (c : Config) (ds : List Dir) (pt : Int × Int) :
    countFlags c (ds.filter (· ≠ .none)) pt = countFlags c ds pt := by
  induction ds generalizing pt with
  | nil => rfl
  | cons d ds ih =>
    by_cases hd : d = .none
    · subst hd
      rw [List.filter_cons_of_neg (by simp), ih, countFlags_cons rfl]
    · rw [List.filter_cons_of_pos (by simpa using hd), countFlags, countFlags, List.foldlM_cons,
        List.foldlM_cons]
      exact congrArg _ (funext ih)

/-- Equal flags are counted through a sequence of pairs, each of which leads to the next. -/
theorem countFlags_replicate {c : Config} {d : Dir} {pairs : Nat → Int × Int} (n : Nat)
    (h : ∀ m < n, counterUpdate c d (pairs m).1 (pairs m).2 = .ok (pairs (m + 1))) :
    countFlags c (List.replicate n d) (pairs 0) = .ok (pairs n) := by
  induction n generalizing pairs with
  | zero => rfl
  | succ n ih =>
    rw [List.replicate_succ, countFlags_cons (h 0 n.succ_pos)]
    exact ih (pairs := fun m => pairs (m + 1)) fun m hm => h (m + 1) (by omega)

/-- Clean cycles from reset complete when the counters pass through a sequence of pairs from 0 and 0, one
a flag. -/
theorem runN_cycles {c : Config} {d : Dir} (hd : d ≠ .none) (k : Nat) {pairs : Nat → Int × Int}
    (h0 : pairs 0 = (0, 0))
    (h : ∀ m < flagsPerCycle c.halfStep * k,
      counterUpdate c d (pairs m).1 (pairs m).2 = .ok (pairs (m + 1))) :
    ∃ t, runN (4 * k) ((State.resetOf c []).presenting (cycles k ((cycleReadings d).map .step))) = .next t
      ∧ t.row = 0 ∧ t.pos = (pairs (flagsPerCycle c.halfStep * k)).1
      ∧ t.trn = (pairs (flagsPerCycle c.halfStep * k)).2 := by
  have hlen : (List.replicate k (cycleReadings d)).flatten.length = 4 * k := by
    cases d with
    | none => exact absurd rfl hd
    | cw => simp [cycleReadings, Nat.mul_comm]
    | ccw => simp [cycleReadings, Nat.mul_comm]
  obtain ⟨hrow, hflags⟩ := cycles_from_start (half := c.halfStep) (z := startRow c) rfl hd k
  have hcount := countFlags_replicate _ h
  rw [h0, ← hflags, countFlags_filter] at hcount
  obtain ⟨t, hrun, hrow', hpos, htrn, -⟩ := exists_runN_reading_resetOf hcount
  rw [cycles_eq_map_step, ← hlen]
  exact ⟨t, hrun, by rw [hrow', hrow, startRow], hpos, htrn⟩

/-- The counters after `m` equal flags from 0 in wrap mode: remainder and quotient by `MAX` + 1. -/
def lapsAfter (c : Config) (d : Dir) (m : Nat) : Int × Int :=
  (d.delta * (m % (c.maximum + 1) : Nat), d.delta * (m / (c.maximum + 1) : Nat))

/-- The counters after `m` equal flags from 0 in saturate mode. -/
def pinnedAfter (c : Config) (d : Dir) (m : Nat) : Int × Int := (d.delta * (min m c.maximum : Nat), 0)

/-- A count within the bound, in either direction, is in `position`'s range. -/
theorem delta_mul_posRange (c : Config) (d : Dir) {n : Nat} (h : n ≤ c.maximum) :
    c.posMin ≤ d.delta * n ∧ d.delta * n ≤ c.posMax := by
  have hm := maximum_range c
  cases d <;> simp [Dir.delta] <;> omega

/-- One more flag in wrap mode: at remainder `MAX` a lap, and otherwise one more. -/
theorem movedCounters_lapsAfter {c : Config} (h0 : c.maximum ≠ 0) (hs : c.saturate = false) {d : Dir}
    (hd : d ≠ .none) (m : Nat) :
    movedCounters c d (lapsAfter c d m).1 (lapsAfter c d m).2 = lapsAfter c d (m + 1) := by
  have hlt : m % (c.maximum + 1) < c.maximum + 1 := Nat.mod_lt _ (Nat.succ_pos _)
  have hdm := Nat.mod_add_div m (c.maximum + 1)
  have hact : BoundActs c d (lapsAfter c d m).1 ↔ m % (c.maximum + 1) = c.maximum := by
    cases d with
    | none => exact absurd rfl hd
    | cw => simp only [BoundActs, lapsAfter, Dir.delta]; omega
    | ccw => simp only [BoundActs, lapsAfter, Dir.delta]; omega
  obtain ⟨hno, heq⟩ | ⟨-, hsat, -⟩ | ⟨hyes, -, heq⟩ :=
    movedCounters_cases c d (lapsAfter c d m).1 (lapsAfter c d m).2
  · rw [hact] at hno
    obtain ⟨hq, hr⟩ := (Nat.div_mod_unique (a := m + 1) (Nat.succ_pos c.maximum)).mpr
      ⟨show m % (c.maximum + 1) + 1 + (c.maximum + 1) * (m / (c.maximum + 1)) = m + 1 by omega,
        show _ < c.maximum + 1 by omega⟩
    rw [heq, lapsAfter, lapsAfter, hq, hr]
    push_cast
    rw [mul_add, mul_one]
  · rw [hs] at hsat; cases hsat
  · rw [hact] at hyes
    obtain ⟨hq, hr⟩ := (Nat.div_mod_unique (a := m + 1) (Nat.succ_pos c.maximum)).mpr
      ⟨show 0 + (c.maximum + 1) * (m / (c.maximum + 1) + 1) = m + 1 by rw [mul_add, mul_one]; omega,
        Nat.succ_pos c.maximum⟩
    rw [heq, lapsAfter, lapsAfter, hq, hr]
    push_cast
    rw [mul_add, mul_one, mul_zero]

/-- In wrap mode equal flags from 0 are counted while the laps stay in `turns`'s range. -/
theorem counterUpdate_lapsAfter {c : Config} (h0 : c.maximum ≠ 0) (hs : c.saturate = false) {d : Dir}
    (hd : d ≠ .none) {m : Nat} (h : c.turnsMin ≤ d.delta * ((m + 1) / (c.maximum + 1) : Nat)
      ∧ d.delta * ((m + 1) / (c.maximum + 1) : Nat) ≤ c.turnsMax) :
    counterUpdate c d (lapsAfter c d m).1 (lapsAfter c d m).2 = .ok (lapsAfter c d (m + 1)) := by
  rw [← movedCounters_lapsAfter h0 hs hd]
  apply counterUpdate_of_inRange
  rw [movedCounters_lapsAfter h0 hs hd]
  obtain ⟨hmin, hmax⟩ := delta_mul_posRange c d (Nat.lt_succ_iff.mp (Nat.mod_lt (m + 1) (Nat.succ_pos _)))
  exact ⟨hmin, hmax, h⟩

/-- Clean cycles from reset in wrap mode, while the laps stay in `turns`'s range. -/
theorem runN_cycles_wrap {c : Config} (h0 : c.maximum ≠ 0) (hs : c.saturate = false) {d : Dir}
    (hd : d ≠ .none) (k : Nat)
    (h : ∀ q ≤ flagsPerCycle c.halfStep * k / (c.maximum + 1),
      c.turnsMin ≤ d.delta * (q : Nat) ∧ d.delta * (q : Nat) ≤ c.turnsMax) :
    ∃ t, runN (4 * k) ((State.resetOf c []).presenting (cycles k ((cycleReadings d).map .step))) = .next t
      ∧ t.row = 0 ∧ t.pos = (lapsAfter c d (flagsPerCycle c.halfStep * k)).1
      ∧ t.trn = (lapsAfter c d (flagsPerCycle c.halfStep * k)).2 :=
  runN_cycles hd k (by simp [lapsAfter]) fun _ hm =>
    counterUpdate_lapsAfter h0 hs hd (h _ (Nat.div_le_div_right (Nat.succ_le_of_lt hm)))

/-- In saturate mode equal flags from 0 are counted up to the bound. -/
theorem counterUpdate_pinnedAfter {c : Config} (h0 : c.maximum ≠ 0) (hs : c.saturate = true) {d : Dir}
    (hd : d ≠ .none) (m : Nat) :
    counterUpdate c d (pinnedAfter c d m).1 (pinnedAfter c d m).2 = .ok (pinnedAfter c d (m + 1)) := by
  have hmoved : movedCounters c d (pinnedAfter c d m).1 (pinnedAfter c d m).2
      = pinnedAfter c d (m + 1) := by
    have hact : BoundActs c d (pinnedAfter c d m).1 ↔ c.maximum ≤ m := by
      cases d with
      | none => exact absurd rfl hd
      | cw => simp only [BoundActs, pinnedAfter, Dir.delta]; omega
      | ccw => simp only [BoundActs, pinnedAfter, Dir.delta]; omega
    obtain ⟨hno, heq⟩ | ⟨hyes, -, heq⟩ | ⟨-, hsat, -⟩ :=
      movedCounters_cases c d (pinnedAfter c d m).1 (pinnedAfter c d m).2
    · rw [hact] at hno
      rw [heq, pinnedAfter, pinnedAfter, min_eq_left (by omega), min_eq_left (by omega)]
      push_cast
      rw [mul_add, mul_one]
    · rw [hact] at hyes
      rw [heq]
      simp only [pinnedAfter, min_eq_right (Nat.le_succ_of_le hyes)]
    · rw [hs] at hsat; cases hsat
  have ht := turns_range c
  rw [← hmoved]
  apply counterUpdate_of_inRange
  rw [hmoved]
  obtain ⟨hmin, hmax⟩ := delta_mul_posRange c d (min_le_right (m + 1) c.maximum)
  exact ⟨hmin, hmax, by dsimp only [pinnedAfter]; omega, by dsimp only [pinnedAfter]; omega⟩

/-! ### Polling -/

/-- Repeats of a reading find no flag (20_memory.md R40 (a)). -/
theorem flagsAlong_replicate (half : Bool) (r : Fin (nrowsOf half)) (p : Pins) (n : Nat) :
    flagsAlong half (nextRow half r p) (List.replicate n p) = List.replicate n .none := by
  induction n generalizing r with
  | zero => rfl
  | succ n ih => rw [List.replicate_succ, flagsAlong, cellFlag_repeat, ih, List.replicate_succ]

end Sys2Proof.Machine

section

open Sys2Proof Sys2Proof.Machine

/-- Settles O24: the winding invariant is the FSM's, and the host reads the visited cells' flags. -/
theorem windingInvariantAlongEveryWalk : Obligations.WindingInvariantAlongEveryWalk := by
  intro s t phase ms hd hhome hrun
  rw [← length_walkReadings phase ms] at hrun ⊢
  obtain ⟨out, hcount, rfl⟩ := runN_reading_next hd hrun
  rw [netFlags_reading hd hcount]
  exact winding_of_walk hhome ms

/-- Settles O26: each flag moves the lap value by its own amount, and the run counts its flags. -/
theorem lapArithmeticAlongEveryRun : Obligations.LapArithmeticAlongEveryRun := by
  intro s t ps hd h0 hs hb hrun
  obtain ⟨out, hcount, rfl⟩ := runN_reading_next hd hrun
  obtain ⟨hpos, htrn⟩ := readTarget_values hcount
  rw [netFlags_reading hd hcount, lapValue, lapValue, PositionBounded, hpos, htrn]
  exact countFlags_lap (pt := (s.pos, s.trn)) h0 hs hb hcount

/-- Settles O22: the repeats find no flag, so nothing is counted, and the last flag is `NONE`. -/
theorem pollingTheSameReadingCountsOnce : Obligations.PollingTheSameReadingCountsOnce := by
  intro s t p n hd h
  obtain ⟨-, out, -, rfl⟩ := execStep_next h
  have hflags : flagsAlong s.cfg.halfStep (afterStep s p out).state (List.replicate n p) = _ :=
    flagsAlong_replicate s.cfg.halfStep s.state p n
  have hcount := countFlags_replicate_none s.cfg n ((afterStep s p out).pos, (afterStep s p out).trn)
  rw [← hflags] at hcount
  obtain ⟨u, hrun, hcfg, -, hpos, htrn, hdir⟩ := exists_runN_reading (s := afterStep s p out) hd hcount
  rw [List.length_replicate] at hrun
  refine ⟨u, hrun, hcfg, hpos, htrn, fun hn => hdir.trans ?_⟩
  refine (congrArg (List.getLastD · _) hflags).trans ?_
  rw [List.getLastD_eq_getLast?, List.getLast?_replicate, if_neg hn.ne', Option.getD_some]

/-- Settles O25: there is room for as many flags as moves, and the winding invariant gives the phase. -/
theorem unboundedPositionFollowsThePhase : Obligations.UnboundedPositionFollowsThePhase := by
  intro c ms h0 hlen
  have hcount := countFlags_unbounded h0
    (ds := flagsAlong c.halfStep (startRow c) (walkReadings 0 ms)) (pos := 0) (trn := 0)
    (by simpa using hlen) (by have := turns_range c; omega)
  rw [zero_add] at hcount
  obtain ⟨t, hrun, hrow, hpos, htrn, hnet⟩ := exists_runN_reading_resetOf hcount
  have hhome : readingAt 0 = homeReading c.halfStep (startRow c) :=
    (homeReading_start c.halfStep _ rfl).symm
  obtain ⟨-, hwind⟩ := winding_of_walk hhome ms
  have hoff : rowOffset c.halfStep (startRow c) = 0 := rowOffset_start c.halfStep _ rfl
  rw [length_walkReadings] at hrun hnet
  refine ⟨t, hrun, hpos.trans hnet.symm, htrn, ?_⟩
  rw [hpos, hrow]
  dsimp only
  linarith

/-- Settles O27: after each flag the counters are remainder and quotient. -/
theorem forwardCyclesCountLaps : Obligations.ForwardCyclesCountLaps := by
  intro c k h0 hs hmax
  have ht := turns_range c
  have hrun := runN_cycles_wrap h0 hs (d := .cw) (by decide) k fun q hq => by
    simp only [Dir.delta]; omega
  simp only [lapsAfter, Dir.delta, one_mul] at hrun
  exact hrun

/-- Settles O28, the mirror of O27. -/
theorem reverseCyclesCountLaps : Obligations.ReverseCyclesCountLaps := by
  intro c k h0 hs hmin
  have ht := turns_range c
  have hrun := runN_cycles_wrap h0 hs (d := .ccw) (by decide) k fun q hq => by
    simp only [Dir.delta]; omega
  simp only [lapsAfter, Dir.delta, neg_one_mul] at hrun
  exact hrun

/-- Settles O29: after each flag `position` is the smaller of the count and the bound. -/
theorem cyclesSaturateAtTheBound : Obligations.CyclesSaturateAtTheBound := by
  intro c k h0 hs
  have hrun {d : Dir} (hd : d ≠ .none) :=
    runN_cycles hd k (pairs := pinnedAfter c d) (by simp [pinnedAfter])
      fun m _ => counterUpdate_pinnedAfter h0 hs hd m
  constructor
  · obtain ⟨t, ht, hrow, hpos, htrn⟩ := hrun (d := .cw) (by decide)
    exact ⟨t, ht, hrow, htrn, by rw [hpos, pinnedAfter, Dir.delta, one_mul, Nat.cast_min]⟩
  · obtain ⟨t, ht, hrow, hpos, htrn⟩ := hrun (d := .ccw) (by decide)
    exact ⟨t, ht, hrow, htrn, by rw [hpos, pinnedAfter, Dir.delta, neg_one_mul]⟩

end
end

section
/-! PROOFS. What every clock edge keeps: the bound, flags in idle rows only, the configuration; and that
`last_dir` decides nothing. -/

namespace Sys2Proof.Machine

/-! ### What an edge can do, its command named -/

/-- Everything an edge can leave: the state as it was, the edge passed, the reset values, or one of the
three commands that write less than those. -/
theorem step_next_cases {s t : State} (h : step s = .next t) :
    t = s ∨ t = s.popEdge ∨ t = s.popEdge.initialise
    ∨ (∃ p, exec (.step p) s.popEdge = .next t)
    ∨ (¬ NoSetposNext s ∧ ∃ v, t = s.popEdge.writePosition v)
    ∨ ∃ v, t = s.popEdge.writeTurns v := by
  obtain ⟨-, ht⟩ | ⟨e, rest, he, ⟨-, ht⟩ | ⟨hrst, hvalid, i, hi, hx⟩ | ⟨-, -, ht⟩⟩ := step_next h
  · exact .inl ht
  · exact .inr (.inr (.inl ht))
  · obtain ⟨-, ht⟩ | ⟨p, rfl, -⟩ | ⟨v, rfl, -, ht⟩ | ⟨v, -, -, ht⟩ | ⟨-, ht⟩ := exec_next hx
    · exact .inr (.inl ht)
    · exact .inr (.inr (.inr (.inl ⟨p, hx⟩)))
    · refine .inr (.inr (.inr (.inr (.inl ⟨fun hno => ?_, v, ht⟩))))
      obtain ⟨hop, -⟩ := decode_ok hi
      have hsetpos : e.cmdOp = 0b010 := (opField_append e.cmdArg e.cmdOp).symm.trans hop.symm
      have := hno e (by rw [he]; rfl)
      simp [Edge.presentsSetpos, hrst, hvalid, hsetpos] at this
    · exact .inr (.inr (.inr (.inr (.inr ⟨v, ht⟩))))
    · exact .inr (.inr (.inl ht))
  · exact .inr (.inl ht)

/-! ### The bound (41_position_counter.md R91) -/

theorem boundHolds_of_pos_eq_zero {s : State} (hpos : s.pos = 0) : BoundHolds s := by
  intro _
  unfold PositionBounded
  omega

/-- An edge that presents no `SETPOS` keeps the bound. -/
theorem step_boundHolds {s t : State} (hno : NoSetposNext s) (hb : BoundHolds s)
    (h : step s = .next t) : BoundHolds t := by
  obtain rfl | rfl | rfl | ⟨p, hx⟩ | ⟨hsetpos, -⟩ | ⟨v, rfl⟩ := step_next_cases h
  · exact hb
  · exact hb
  · exact boundHolds_of_pos_eq_zero (initialise_pos _)
  · obtain ⟨hcfg, -, -, hmoved⟩ := exec_step_next hx
    intro h0
    rw [hcfg] at h0
    have hbound := movedCounters_bounded h0 t.lastDir s.popEdge.trn (hb h0)
    rw [← popEdge_pos, ← hmoved] at hbound
    rw [PositionBounded, hcfg]
    exact hbound
  · exact absurd hno hsetpos
  · exact hb

/-- Where no `SETPOS` waits, none waits after an edge. -/
theorem step_noSetposAhead {s t : State} (hno : NoSetposAhead s) (h : step s = .next t) :
    NoSetposAhead t := by
  obtain rfl | rfl | rfl | ⟨p, hx⟩ | ⟨-, v, rfl⟩ | ⟨v, rfl⟩ := step_next_cases h
  · exact hno
  · exact hno.popEdge
  · exact hno.popEdge
  · obtain ⟨-, out, -, rfl⟩ := execStep_next hx
    exact hno.popEdge
  · exact hno.popEdge
  · exact hno.popEdge

/-! ### Flags in idle rows only -/

/-- Every cell with a flag leads to an idle row (20_memory.md R35, R37). -/
theorem idleRow_of_cellFlag {half : Bool} {s : Fin (nrowsOf half)} {p : Pins}
    (h : cellFlag half s p ≠ .none) : idleRow half (nextRow half s p) := by
  obtain ⟨hstart, hmid⟩ := nextRow_detent half s
  obtain ⟨-, -, rfl⟩ | ⟨hhalf, ⟨-, rfl⟩ | ⟨-, rfl⟩⟩ := (cellFlag_ne_none_iff half s p).mp h
  · exact .inl hstart
  · exact .inr ⟨hhalf, hmid hhalf⟩
  · exact .inl hstart

theorem step_flagOnlyInIdleRow {s t : State} (hf : FlagOnlyInIdleRow s) (h : step s = .next t) :
    FlagOnlyInIdleRow t := by
  obtain rfl | rfl | rfl | ⟨p, hx⟩ | ⟨-, v, rfl⟩ | ⟨v, rfl⟩ := step_next_cases h
  · exact hf
  · exact hf
  · exact fun hne => absurd (initialise_lastDir _) hne
  · obtain ⟨hcfg, hrow, hdir, -⟩ := exec_step_next hx
    intro hne
    rw [hcfg, hrow]
    exact idleRow_of_cellFlag (hdir ▸ hne)
  · exact hf
  · exact hf

/-! ### The other edges -/

theorem step_of_no_edge {s : State} (he : s.edges = []) : step s = .next s := by
  rw [step, he]

/-- An edge with `rst` = 1 initialises, whatever else it shows (70_reset_and_hazards.md R120). -/
theorem step_of_rst {s : State} {e : Edge s.cfg} {rest : List (Edge s.cfg)} (he : s.edges = e :: rest)
    (hrst : e.rst = true) : step s = .next s.popEdge.initialise := by
  rw [step, he]
  exact if_pos hrst

/-! ### `last_dir` decides nothing (10_state.md R13) -/

theorem whenDefined_forgetDir {s : State} {k k' : Result} (h : forgetDirOutcome k' = forgetDirOutcome k) :
    forgetDirOutcome (whenDefined s.forgetDir k') = forgetDirOutcome (whenDefined s k) := by
  change forgetDirOutcome (if s.regsDefined then k' else _) = _
  unfold whenDefined
  split
  · exact h
  · rfl

/-- No command reads `last_dir`: `STEP` and `INIT` write it, the others leave it. -/
theorem exec_forgetDir (i : Instr) (s : State) :
    forgetDirOutcome (exec i s.forgetDir) = forgetDirOutcome (exec i s) := by
  cases i with
  | nop => rfl
  | step p => rfl
  | setpos v => exact whenDefined_forgetDir rfl
  | setturns v => exact whenDefined_forgetDir rfl
  | init => rfl

/-- No edge reads `last_dir`: which kind of edge comes does not depend on it, and no kind's effect does. -/
theorem step_forgetDir (s : State) : forgetDirOutcome (step s.forgetDir) = forgetDirOutcome (step s) := by
  cases he : s.edges with
  | nil => rw [step_of_no_edge he, step_of_no_edge (s := s.forgetDir) he]; rfl
  | cons e rest =>
    cases hrst : e.rst with
    | true => rw [step_of_rst he hrst, step_of_rst (s := s.forgetDir) he hrst]; rfl
    | false =>
      cases hvalid : e.cmdValid with
      | false =>
        rw [step_of_idle_edge he hrst hvalid, step_of_idle_edge (s := s.forgetDir) he hrst hvalid]; rfl
      | true =>
        obtain ⟨i, hi, -⟩ | ⟨-, herr⟩ := decode_cases s.cfg e.word
        · rw [step_of_decode_ok he hrst hvalid hi,
            step_of_decode_ok (s := s.forgetDir) he hrst hvalid hi]
          exact exec_forgetDir i s.popEdge
        · rw [step_of_decode_error he hrst hvalid herr,
            step_of_decode_error (s := s.forgetDir) he hrst hvalid herr]

/-- Outcomes alike but for the last direction are both next states alike but for it, the same fault, or
the same refusal. -/
theorem forgetDirOutcome_eq {r r' : Result} (h : forgetDirOutcome r = forgetDirOutcome r') :
    (∃ t t', r = .next t ∧ r' = .next t' ∧ t.forgetDir = t'.forgetDir)
    ∨ (∃ f, r = .fault f ∧ r' = .fault f) ∨ ∃ x, r = .refused x ∧ r' = .refused x := by
  cases r with
  | next t => cases r' with
    | next t' => exact .inl ⟨t, t', rfl, rfl, Host.Outcome.next.inj h⟩
    | fault f => cases h
    | refused x => cases h
  | fault f => cases r' with
    | next t' => cases h
    | fault f' => cases h; exact .inr (.inl ⟨f, rfl, rfl⟩)
    | refused x => cases h
  | refused x => cases r' with
    | next t' => cases h
    | fault f => cases h
    | refused x' => cases h; exact .inr (.inr ⟨x, rfl, rfl⟩)

/-! ### The configuration stays -/

theorem step_next_frame {s t : State} (h : step s = .next t) :
    t.cfg = s.cfg ∧ (s.regsDefined = true → t.regsDefined = true) := by
  obtain ⟨-, rfl⟩ | ⟨e, rest, -, ⟨-, rfl⟩ | ⟨-, -, i, -, hx⟩ | ⟨-, -, rfl⟩⟩ := step_next h
  · exact ⟨rfl, id⟩
  · exact ⟨rfl, fun _ => rfl⟩
  · exact exec_next_frame (s := s.popEdge) hx
  · exact ⟨rfl, id⟩

end Sys2Proof.Machine

section

open Sys2Proof Sys2Proof.Machine

/-- Settles O30: of the commands `SETPOS` alone writes `position` without looking at `MAX`. -/
theorem everyStepKeepsTheBound : Obligations.EveryStepKeepsTheBound := by
  refine ⟨fun _ _ => step_boundHolds, fun s t hk h => ?_⟩
  obtain ⟨hno, hb⟩ := hk
  exact ⟨step_noSetposAhead hno h, step_boundHolds hno.next hb h⟩

/-- Settles O31: `position` is 0. -/
theorem boundHoldsAtReset : Obligations.BoundHoldsAtReset := by
  intro c es
  have hb : BoundHolds (State.resetOf c es) := boundHolds_of_pos_eq_zero (resetOf_pos c es)
  exact ⟨hb, fun hno => ⟨hno, hb⟩⟩

/-- Settles O32: a `STEP` leaves its cell's row and flag together. -/
theorem everyStepKeepsFlagsInIdleRows : Obligations.EveryStepKeepsFlagsInIdleRows :=
  fun _ _ => step_flagOnlyInIdleRow

/-- Settles O33: `last_dir` is `NONE`. -/
theorem flagsInIdleRowsAtReset : Obligations.FlagsInIdleRowsAtReset :=
  fun c es hne => absurd (resetOf_lastDir c es) hne

/-- Settles O35: the ROM is selected by the configuration, which no edge writes. -/
theorem noStepChangesConfigurationOrRom : Obligations.NoStepChangesConfigurationOrRom := by
  intro s t h
  obtain ⟨hcfg, hdef⟩ := step_next_frame h
  exact ⟨hcfg, fun a => by rw [hcfg], hdef⟩

/-- Settles O36, by induction on the number of edges. -/
theorem lastDirDecidesNothing : Obligations.LastDirDecidesNothing := by
  intro s s' k h
  induction k generalizing s s' with
  | zero => exact congrArg Host.Outcome.next h
  | succ k ih =>
    have hstep : forgetDirOutcome (step s) = forgetDirOutcome (step s') := by
      rw [← step_forgetDir s, h, step_forgetDir s']
    obtain ⟨t, t', ht, ht', heq⟩ | ⟨f, hf, hf'⟩ | ⟨r, hr, hr'⟩ := forgetDirOutcome_eq hstep
    · simp only [runN, ht, ht']
      exact ih t t' heq
    · simp only [runN, hf, hf']
    · simp only [runN, hr, hr']

end
end

section
/-! PROOFS. Reset and power-on (70_reset_and_hazards.md R120, R121), the output ports, several blocks,
elaboration. -/

namespace Sys2Proof.Machine

/-- Before the first reset a guarded command faults. -/
theorem whenDefined_of_not_regsDefined {s : State} (hd : s.regsDefined = false) (k : Result) :
    whenDefined s k = .fault .beforeReset := if_neg (by simp [hd])

theorem outputs_of_regsDefined {s : State} (hd : s.regsDefined = true) :
    s.outputs = some ⟨s.position, s.turns, s.lastDir.code⟩ := if_pos hd

theorem outputs_of_not_regsDefined {s : State} (hd : s.regsDefined = false) : s.outputs = none :=
  if_neg (by simp [hd])

/-- The codes of the directions differ (20_memory.md R33). -/
theorem Dir.code_eq_code_iff {d d' : Dir} : d.code = d'.code ↔ d = d' := by
  refine ⟨fun h => ?_, congrArg Dir.code⟩
  have := congrArg Dir.ofCode h
  rwa [Dir.ofCode_code, Dir.ofCode_code, Option.some_inj] at this

/-- What an outcome of one block is for all of them, the block being number `k`. -/
def blockOutcome (blocks : List State) (k : Nat) : Result → Host.Outcome (List State) Fault Refusal
  | .next t => .next (blocks.set k t)
  | .fault f => .fault f
  | .refused r => .refused r

theorem stepBlock_eq {blocks : List State} {k : Nat} {s : State} (h : blocks[k]? = some s) :
    stepBlock blocks k = blockOutcome blocks k (step s) := by
  rw [stepBlock, h]
  dsimp only
  cases step s <;> rfl

/-- A requested configuration is well-formed exactly under the conditions of 00_scope.md R6. -/
theorem wf_iff (r : RawConfig) : r.wf = true ↔
    2 ≤ r.posW ∧ 2 ≤ r.turnsW ∧ 0 ≤ r.maximum ∧ r.maximum ≤ 2 ^ (r.posW - 1) - 1 := by
  simp [RawConfig.wf, and_assoc]

end Sys2Proof.Machine

section

open Sys2Proof Sys2Proof.Machine

/-- Settles O1. -/
theorem resetGivesTheStartState : Obligations.ResetGivesTheStartState :=
  ⟨fun c es => ⟨resetOf_cfg c es, resetOf_regsDefined c es, resetOf_row c es, resetOf_lastDir c es,
    resetOf_pos c es, resetOf_trn c es⟩, rfl⟩

/-- Settles O2: the reset branch comes first, and initialising writes every register. -/
theorem resetEdgeWinsOverAnyCommand : Obligations.ResetEdgeWinsOverAnyCommand := by
  intro s e rest he hrst
  rw [step_of_rst he hrst, popEdge_of_edges_cons he, initialise_eq_resetOf]

/-- Settles O7: the commands that read registers are guarded, the others are not. -/
theorem beforeResetOnlyInitAndNopRun : Obligations.BeforeResetOnlyInitAndNopRun := by
  intro s hd
  refine ⟨outputs_of_not_regsDefined hd, fun p => ?_, fun v => ?_, fun v => ?_, ?_, exec_nop s⟩
  · exact whenDefined_of_not_regsDefined hd _
  · exact whenDefined_of_not_regsDefined hd _
  · exact whenDefined_of_not_regsDefined hd _
  · rw [exec_init, initialise_eq_resetOf]

/-- Settles O39: the edge of block `k` is that block's own step, written back in its place. -/
theorem blocksDoNotAffectEachOther : Obligations.BlocksDoNotAffectEachOther := by
  intro bs k s hk
  rw [stepBlock_eq hk]
  refine ⟨fun t ht => ⟨bs.set k t, by rw [ht, blockOutcome], ?_, fun j hj => ?_⟩, fun f => ?_, fun r => ?_⟩
  · exact List.getElem?_set_self (List.getElem?_eq_some_iff.mp hk).1
  · exact List.getElem?_set_ne hj.symm
  · cases step s <;> simp [blockOutcome]
  · cases step s <;> simp [blockOutcome]

/-- Settles O40: a port is its register, and the codes of the flags differ. -/
theorem outputsShowTheRegisters : Obligations.OutputsShowTheRegisters :=
  fun _ hd => ⟨_, outputs_of_regsDefined hd, rfl, rfl, Dir.code_eq_code_iff (d' := .none),
    Dir.code_eq_code_iff (d' := .cw), Dir.code_eq_code_iff (d' := .ccw)⟩

/-- Settles O46: elaboration asks for well-formedness, and keeps the values asked for. -/
theorem elaborationRefusesIllFormedConfigurations :
    Obligations.ElaborationRefusesIllFormedConfigurations := by
  intro r
  rw [← wf_iff]
  refine ⟨fun hwf => ⟨_, dif_pos hwf, rfl, ?_, rfl, rfl, rfl⟩, fun hwf => dif_neg hwf⟩
  obtain ⟨-, -, hmax, -⟩ := (wf_iff r).mp hwf
  exact Int.toNat_of_nonneg hmax

end
end
